-- ==== Sys2Proof/Word.lean ====
section
/-! DEFINITION. The word types of CHIP8-CORE (spec/00_scope.md R4, R9): every value is an unsigned
integer of a stated width. -/

namespace Sys2Proof

/-- A 4-bit field of an instruction word (R9, R61). -/
abbrev Nibble := BitVec 4

/-- The width of `V[i]`, `DT`, `ST`, `sp`, a memory cell and the byte immediate `kk` (R4). -/
abbrev Byte := BitVec 8

/-- The address immediate `nnn`, 12 bits (R4, R63). -/
abbrev Addr := BitVec 12

/-- The width of `pc`, `I`, a stack entry and an instruction word (R4). -/
abbrev Word := BitVec 16

/-- A register index: every value of the 4-bit field names one of the 16 registers (R20). -/
abbrev Reg := Fin 16

end Sys2Proof
end

