-- ==== Sys2Proof/Syntax.lean ====
section
/-! DEFINITION. The instructions of CHIP8-CORE: one constructor per row of spec/opcode_table.json, in the
table's order (spec/30_encoding.md R66). Operands are already assembled (R63): registers, the byte
immediate `kk`, the address immediate `nnn`. -/

namespace Sys2Proof

inductive Instr where
  /-- `RET`, 00EE (R100). -/
  | ret
  /-- `JP addr`, 1nnn (R101). -/
  | jpAddr (nnn : Addr)
  /-- `CALL addr`, 2nnn (R102). -/
  | callAddr (nnn : Addr)
  /-- `SE Vx,byte`, 3xkk (R110). -/
  | seVxByte (x : Reg) (kk : Byte)
  /-- `SNE Vx,byte`, 4xkk (R111). -/
  | sneVxByte (x : Reg) (kk : Byte)
  /-- `SE Vx,Vy`, 5xy0 (R112). -/
  | seVxVy (x y : Reg)
  /-- `LD Vx,byte`, 6xkk (R120). -/
  | ldVxByte (x : Reg) (kk : Byte)
  /-- `ADD Vx,byte`, 7xkk (R121). -/
  | addVxByte (x : Reg) (kk : Byte)
  /-- `LD Vx,Vy`, 8xy0 (R130). -/
  | ldVxVy (x y : Reg)
  /-- `OR Vx,Vy`, 8xy1 (R131). -/
  | orVxVy (x y : Reg)
  /-- `AND Vx,Vy`, 8xy2 (R132). -/
  | andVxVy (x y : Reg)
  /-- `XOR Vx,Vy`, 8xy3 (R133). -/
  | xorVxVy (x y : Reg)
  /-- `ADD Vx,Vy`, 8xy4 (R134). -/
  | addVxVy (x y : Reg)
  /-- `SUB Vx,Vy`, 8xy5 (R135). -/
  | subVxVy (x y : Reg)
  /-- `SHR Vx`, 8xy6 (R136). The field `y` is decoded and ignored (R63); it is kept so that no bit of the
  word is lost (log 19). -/
  | shrVx (x y : Reg)
  /-- `SUBN Vx,Vy`, 8xy7 (R137). -/
  | subnVxVy (x y : Reg)
  /-- `SHL Vx`, 8xyE (R138). The field `y` is decoded and ignored, as in `shrVx`. -/
  | shlVx (x y : Reg)
  /-- `SNE Vx,Vy`, 9xy0 (R113). -/
  | sneVxVy (x y : Reg)
  /-- `LD I,addr`, Annn (R150). -/
  | ldIAddr (nnn : Addr)
  /-- `JP V0,addr`, Bnnn (R103). -/
  | jpV0Addr (nnn : Addr)
  /-- `RND Vx,byte`, Cxkk (R151). -/
  | rndVxByte (x : Reg) (kk : Byte)
  /-- `LD Vx,DT`, Fx07 (R152). -/
  | ldVxDt (x : Reg)
  /-- `LD DT,Vx`, Fx15 (R153). -/
  | ldDtVx (x : Reg)
  /-- `LD ST,Vx`, Fx18 (R154). -/
  | ldStVx (x : Reg)
  /-- `ADD I,Vx`, Fx1E (R155). -/
  | addIVx (x : Reg)
  /-- The default no-operation (R160), with the word that was fetched: one of the words of R68. -/
  | nop (w : Word)
  deriving DecidableEq, Repr

end Sys2Proof
end

