-- ==== Sys2Proof/WellFormed.lean ====
section
/-! DEFINITION. Which instructions are words of the hardware (spec/30_encoding.md R68). Every operand of
rows 1 to 25 has the width of its field, so only the default row has a condition. -/

namespace Sys2Proof

/-- The words that take the default rule, line by line as the table of R68 lists them. -/
def isDefaultWord (w : Word) : Bool :=
  let op := w.toNat / 4096
  let n := w.toNat % 16
  let kk := w.toNat % 256
  (op == 0x0 && w.toNat != 0x00EE) ||
  (op == 0x5 && n != 0) ||
  (op == 0x8 && [0x8, 0x9, 0xA, 0xB, 0xC, 0xD, 0xF].contains n) ||
  (op == 0x9 && n != 0) ||
  op == 0xD ||
  op == 0xE ||
  (op == 0xF && ! [0x07, 0x15, 0x18, 0x1E].contains kk)

/-- An instruction some word of memory stands for: a default no-operation carries a word of R68. -/
def Instr.wf : Instr → Bool
  | .nop w => isDefaultWord w
  | .ret => true
  | .jpAddr _ => true
  | .callAddr _ => true
  | .seVxByte _ _ => true
  | .sneVxByte _ _ => true
  | .seVxVy _ _ => true
  | .ldVxByte _ _ => true
  | .addVxByte _ _ => true
  | .ldVxVy _ _ => true
  | .orVxVy _ _ => true
  | .andVxVy _ _ => true
  | .xorVxVy _ _ => true
  | .addVxVy _ _ => true
  | .subVxVy _ _ => true
  | .shrVx _ _ => true
  | .subnVxVy _ _ => true
  | .shlVx _ _ => true
  | .sneVxVy _ _ => true
  | .ldIAddr _ => true
  | .jpV0Addr _ => true
  | .rndVxByte _ _ => true
  | .ldVxDt _ => true
  | .ldDtVx _ => true
  | .ldStVx _ => true
  | .addIVx _ => true

end Sys2Proof
end

