-- ==== Sys2Proof/Decode.lean ====
section
/-! DEFINITION. The decoder and the dispatcher (spec/40_cycle.md R84, R85; spec/30_encoding.md R60 to R69),
then the encoder (R72). Every word is two bytes, most significant byte first (R41); every pair of bytes
decodes (R84), and fewer than two bytes are rejected by name. -/

namespace Sys2Proof

/-- Why a byte string is not the start of an instruction. -/
inductive DecodeError where
  /-- Fewer than the two bytes every instruction has (R60). The machine never meets it: a fetch reads two bytes or
  faults (R83). DESIGN CHOICE, safe: log 26. -/
  | truncated
  deriving DecidableEq, Repr

/-- The four fields the dispatcher sees (R61). -/
structure Fields where
  op : Nibble
  x : Nibble
  y : Nibble
  n : Nibble
  deriving DecidableEq, Repr

/-- The instruction word `op : x : y : n` (R61). -/
def Fields.word (f : Fields) : Word := f.op ++ f.x ++ f.y ++ f.n

/-- The fields of a word (R61). -/
def Fields.ofWord (w : Word) : Fields where
  op := w.extractLsb' 12 4
  x := w.extractLsb' 8 4
  y := w.extractLsb' 4 4
  n := w.extractLsb' 0 4

/-- "high nibble and low nibble of each byte, in byte order" (R84). -/
def Fields.ofBytes (b0 b1 : Byte) : Fields where
  op := b0.extractLsb' 4 4
  x := b0.extractLsb' 0 4
  y := b1.extractLsb' 4 4
  n := b1.extractLsb' 0 4

/-- `kk = (y << 4) + n` (R63). -/
def Fields.kk (f : Fields) : Byte := f.y ++ f.n

/-- `nnn = (x << 8) + (y << 4) + n` (R63). -/
def Fields.nnn (f : Fields) : Addr := f.x ++ f.y ++ f.n

/-- The register a 4-bit field names (R20, R63). -/
def regOfNibble (v : Nibble) : Reg := ⟨v.toNat, v.isLt⟩

/-- The field that names a register. -/
def nibbleOfReg (r : Reg) : Nibble := BitVec.ofFin r

/-- A pattern of R66: a digit where the field is fixed, `none` where it is free. -/
structure Pattern where
  op : Option Nibble
  x : Option Nibble
  y : Option Nibble
  n : Option Nibble
  deriving DecidableEq, Repr

/-- One field against one place of a pattern. -/
def nibbleAccepted : Option Nibble → Nibble → Bool
  | none, _ => true
  | some c, v => v == c

/-- The word's fields match the pattern (R64). -/
def Pattern.accepts (p : Pattern) (f : Fields) : Bool :=
  nibbleAccepted p.op f.op && nibbleAccepted p.x f.x && nibbleAccepted p.y f.y && nibbleAccepted p.n f.n

/-- The `mask` column of R66. -/
def Pattern.mask (p : Pattern) : Word :=
  let m : Option Nibble → Nibble := fun d => if d.isSome then 0xF else 0x0
  m p.op ++ m p.x ++ m p.y ++ m p.n

/-- The `match` column of R66. -/
def Pattern.value (p : Pattern) : Word :=
  p.op.getD 0 ++ p.x.getD 0 ++ p.y.getD 0 ++ p.n.getD 0

/-- A row of the opcode map: a pattern and the instruction it selects. -/
structure Row where
  pattern : Pattern
  build : Fields → Instr

/-- Formats of R62. -/
def rowZ (op x y n : Nibble) (i : Instr) : Row := ⟨⟨some op, some x, some y, some n⟩, fun _ => i⟩

def rowA (op : Nibble) (i : Addr → Instr) : Row :=
  ⟨⟨some op, none, none, none⟩, fun f => i f.nnn⟩

def rowI (op : Nibble) (i : Reg → Byte → Instr) : Row :=
  ⟨⟨some op, none, none, none⟩, fun f => i (regOfNibble f.x) f.kk⟩

def rowR (op n : Nibble) (i : Reg → Reg → Instr) : Row :=
  ⟨⟨some op, none, none, some n⟩, fun f => i (regOfNibble f.x) (regOfNibble f.y)⟩

def rowF (y n : Nibble) (i : Reg → Instr) : Row :=
  ⟨⟨some 0xF, none, some y, some n⟩, fun f => i (regOfNibble f.x)⟩

/-- The opcode map of R66, row by row in its order, the default row last. -/
def opcodeMap : List Row :=
  [rowZ 0x0 0x0 0xE 0xE .ret,
   rowA 0x1 .jpAddr,
   rowA 0x2 .callAddr,
   rowI 0x3 .seVxByte,
   rowI 0x4 .sneVxByte,
   rowR 0x5 0x0 .seVxVy,
   rowI 0x6 .ldVxByte,
   rowI 0x7 .addVxByte,
   rowR 0x8 0x0 .ldVxVy,
   rowR 0x8 0x1 .orVxVy,
   rowR 0x8 0x2 .andVxVy,
   rowR 0x8 0x3 .xorVxVy,
   rowR 0x8 0x4 .addVxVy] ++
  [rowR 0x8 0x5 .subVxVy,
   rowR 0x8 0x6 .shrVx,
   rowR 0x8 0x7 .subnVxVy,
   rowR 0x8 0xE .shlVx,
   rowR 0x9 0x0 .sneVxVy,
   rowA 0xA .ldIAddr,
   rowA 0xB .jpV0Addr,
   rowI 0xC .rndVxByte,
   rowF 0x0 0x7 .ldVxDt,
   rowF 0x1 0x5 .ldDtVx,
   rowF 0x1 0x8 .ldStVx,
   rowF 0x1 0xE .addIVx,
   ⟨⟨none, none, none, none⟩, fun f => .nop f.word⟩]

/-- The dispatcher: "evaluated top to bottom, first match wins" (R64, R85). -/
def dispatch (f : Fields) : Instr :=
  match opcodeMap.find? (fun r => r.pattern.accepts f) with
  | some r => r.build f
  | none => .nop f.word

/-- The instruction of two fetched bytes (R84, R85). -/
def decodeBytes (b0 b1 : Byte) : Instr := dispatch (Fields.ofBytes b0 b1)

/-- The instruction of a word (R61, R85). -/
def decodeWord (w : Word) : Instr := dispatch (Fields.ofWord w)

/-- The decoder on a byte string: the instruction and what follows it. -/
def decode : List Byte → Except DecodeError (Instr × List Byte)
  | b0 :: b1 :: rest => .ok (decodeBytes b0 b1, rest)
  | _ => .error .truncated

/-- The two bytes of a word as memory holds it, "most significant byte first" (R41, R72). -/
def wordBytes (w : Word) : List Byte := [w.extractLsb' 8 8, w.extractLsb' 0 8]

/-- Formats `A`, `I`, `R`, `F` of R72, as fields. -/
def fieldsA (op : Nibble) (nnn : Addr) : Fields :=
  ⟨op, nnn.extractLsb' 8 4, nnn.extractLsb' 4 4, nnn.extractLsb' 0 4⟩

def fieldsI (op : Nibble) (x : Reg) (kk : Byte) : Fields :=
  ⟨op, nibbleOfReg x, kk.extractLsb' 4 4, kk.extractLsb' 0 4⟩

def fieldsR (op : Nibble) (x y : Reg) (n : Nibble) : Fields := ⟨op, nibbleOfReg x, nibbleOfReg y, n⟩

def fieldsF (x : Reg) (y n : Nibble) : Fields := ⟨0xF, nibbleOfReg x, y, n⟩

/-- The fields of an instruction's word (R66, R72). -/
def encodeFields : Instr → Fields
  | .ret => ⟨0x0, 0x0, 0xE, 0xE⟩
  | .jpAddr nnn => fieldsA 0x1 nnn
  | .callAddr nnn => fieldsA 0x2 nnn
  | .seVxByte x kk => fieldsI 0x3 x kk
  | .sneVxByte x kk => fieldsI 0x4 x kk
  | .seVxVy x y => fieldsR 0x5 x y 0x0
  | .ldVxByte x kk => fieldsI 0x6 x kk
  | .addVxByte x kk => fieldsI 0x7 x kk
  | .ldVxVy x y => fieldsR 0x8 x y 0x0
  | .orVxVy x y => fieldsR 0x8 x y 0x1
  | .andVxVy x y => fieldsR 0x8 x y 0x2
  | .xorVxVy x y => fieldsR 0x8 x y 0x3
  | .addVxVy x y => fieldsR 0x8 x y 0x4
  | .subVxVy x y => fieldsR 0x8 x y 0x5
  | .shrVx x y => fieldsR 0x8 x y 0x6
  | .subnVxVy x y => fieldsR 0x8 x y 0x7
  | .shlVx x y => fieldsR 0x8 x y 0xE
  | .sneVxVy x y => fieldsR 0x9 x y 0x0
  | .ldIAddr nnn => fieldsA 0xA nnn
  | .jpV0Addr nnn => fieldsA 0xB nnn
  | .rndVxByte x kk => fieldsI 0xC x kk
  | .ldVxDt x => fieldsF x 0x0 0x7
  | .ldDtVx x => fieldsF x 0x1 0x5
  | .ldStVx x => fieldsF x 0x1 0x8
  | .addIVx x => fieldsF x 0x1 0xE
  | .nop w => Fields.ofWord w

/-- The word of an instruction (R72). -/
def encodeWord (i : Instr) : Word := (encodeFields i).word

/-- The bytes of an instruction as memory holds them (R41, R72). -/
def encode (i : Instr) : List Byte := wordBytes (encodeWord i)

/-- What the decoder reads from an instruction whose bits are `w`, numbered as spec/opcode_table.json numbers
them: one 16-bit word, bit 0 its least significant, of which the low `nbits` are given and the others 0. -/
def decodeTableWord (nbits w : Nat) : Option Instr :=
  match decode (wordBytes (BitVec.ofNat 16 (w % 2 ^ nbits))) with
  | .ok (i, _) => some i
  | .error _ => none

end Sys2Proof
end

