-- ==== Sys2Proof/Config.lean ====
section
/-! DEFINITION. What an implementation fixes (spec/00_scope.md R4, R5; spec/92_eei_decisions.md) and the
free values the spec leaves open: the `opaque` constants have no body, so no proof can see a value of
them and every claim holds whatever they are. -/

namespace Sys2Proof

/-- What an addition that does not fit does (R5, D5): the source calls it "build-configuration-dependent
(wrap vs fault)". -/
inductive OverflowPolicy where
  | wrap
  | trap
  deriving DecidableEq, Repr

/-- `MEM_SIZE`, decided 4096 by the spec and kept as a name (R5, D1). UNVERIFIED, unsafe: log 2. -/
def Config.memSize : Nat := 4096

/-- The offset the ROM is loaded at, which is also the reset value of `pc` (R4, R47, R192). -/
def Config.romBase : Nat := 0x200

/-- The font's length: 16 glyphs of 5 bytes (R4, R47, R194). -/
def Config.fontSize : Nat := 80

/-- `FONT`, byte `a` of the 80 (R48, D2): an OPEN parameter, so a constant without a body. Only the
arguments below `Config.fontSize` are ever used. DESIGN CHOICE (its form), safe: log 3. -/
opaque Config.font : Nat → Byte

/-- The conventional font table offered in R48, "from general knowledge, not in source". The machine does
NOT use it: a claim that wants it assumes that `Config.font` agrees with it, and says so. -/
def Config.conventionalFont : List Byte :=
  [0xF0, 0x90, 0x90, 0x90, 0xF0,  0x20, 0x60, 0x20, 0x20, 0x70,
   0xF0, 0x10, 0xF0, 0x80, 0xF0,  0xF0, 0x10, 0xF0, 0x10, 0xF0,
   0x90, 0x90, 0xF0, 0x10, 0x10,  0xF0, 0x80, 0xF0, 0x10, 0xF0,
   0xF0, 0x80, 0xF0, 0x90, 0xF0,  0xF0, 0x10, 0x20, 0x40, 0x40] ++
  [0xF0, 0x90, 0xF0, 0x90, 0xF0,  0xF0, 0x90, 0xF0, 0x10, 0xF0,
   0xF0, 0x90, 0xF0, 0x90, 0x90,  0xE0, 0x90, 0xE0, 0x90, 0xE0,
   0xF0, 0x80, 0x80, 0x80, 0xF0,  0xE0, 0x90, 0x90, 0x90, 0xE0,
   0xF0, 0x80, 0xF0, 0x80, 0xF0,  0xF0, 0x80, 0xF0, 0x80, 0x80]

/-- What a byte of `ram` outside the font that no ROM byte was copied to holds (R47, D3). UNVERIFIED,
unsafe: log 4. -/
def Config.unloadedByte : Byte := 0x00

/-- `OVERFLOW_POLICY`, decided `wrap` by the spec (R5, D5). UNVERIFIED, unsafe: log 7. -/
def Config.overflowPolicy : OverflowPolicy := .wrap

/-- The byte of the `k`-th draw (R151, D14): "a free 8-bit input ... under no law". DESIGN CHOICE (its
form), safe: log 12. -/
opaque Config.randomByte : Nat → Byte

/-- What `RET` would read at a stack pointer of 16 or more, outside `stack`, which the spec gives no
meaning (D8) and no run reaches (R25): a free value. DESIGN CHOICE, safe: log 13. -/
opaque Config.strayStackEntry : Byte → Word

end Sys2Proof
end

