-- ==== Sys2Proof/Machine/State.lean ====
section
/-! DEFINITION. The state of CHIP8-CORE (spec/10_state.md) as plain data, the reasons a step can stop, and the
state after reset (R32, R47, R190). -/

namespace Sys2Proof.Machine

/-- The fault causes of spec/60_exceptions.md R170, each with the `pc` of the faulting cycle. The spec
describes the entry (R177), so a faulting cycle answers a NEXT state whose `fault` field holds one of these;
no step answers `Host.Outcome.fault` (log 1). Safe: a core that holds a fault never changes again (R81). -/
inductive Fault where
  /-- Code 1, raised by the fetch of any cycle when `pc + 1 >= MEM_SIZE` (R83, R171). Safe: the core stops. -/
  | fetchOutOfBounds (pc : Word)
  /-- Code 2, raised by `RET` at `sp = 0` (R100, R172). Safe: the core stops. -/
  | stackUnderflow (pc : Word)
  /-- Code 3, raised by `CALL` at `sp = 15` (R102, R173, D8). Safe: the core stops where the software might
  run on. -/
  | stackOverflow (pc : Word)
  /-- Code 4, raised by `ADD Vx,byte` and `ADD I,Vx` only under the policy `trap` (R174), which the spec
  does not choose (D5). Safe: the core stops. -/
  | arithmeticOverflow (pc : Word)
  deriving DecidableEq, Repr

/-- Why something has no meaning. No step of the core refuses ("There is no refusal inside the core", R7). -/
inductive Refusal where
  /-- An instruction without a meaning yet; raised by no arm of `exec`. Safe. -/
  | notModelled (mnemonic : String)
  /-- Raised by `boot` only: the ROM does not fit, and "a launch with a longer ROM is refused by the model,
  not given a meaning" (R196, D22). Safe. -/
  | romTooLong (length : Nat)
  deriving DecidableEq, Repr

/-- `ram` (R30, R40) as address and byte pairs in the canonical form `Memory.wf` of Machine/Ops.lean. -/
abbrev Memory := List Host.Cell

/-- All the state the spec gives the machine (10_state section 1), and `draws`. -/
structure State where
  /-- `V[0]` to `V[15]`; `V[15]` is `VF` (R20, R21). -/
  v : Vector Byte 16
  /-- The index register `I` (R22). -/
  i : Word
  /-- The delay register, pure storage (R23). -/
  dt : Byte
  /-- The sound register, pure storage (R23). -/
  st : Byte
  /-- The program counter, a byte address (R24). -/
  pc : Word
  /-- The stack pointer, an index into `stack` (R25). -/
  sp : Byte
  /-- Sixteen return addresses no instruction writes (R25, R27). -/
  stack : Vector Word 16
  /-- The fault register (R28). -/
  fault : Option Fault
  /-- Memory, read-only to the core (R30, R44). -/
  ram : Memory
  /-- The model's own field: how many random bytes have been drawn (log 12). -/
  draws : Nat
  deriving DecidableEq, Repr

/-- The state after reset (R32, R190), with no ROM loaded: `ram` reads as the font and zeros (R47). The zeros
but `sp` are the spec's decision D3 (log 5), `pc` its decision D4 (log 6); `draws` is log 12. -/
def State.reset : State where
  v := Vector.replicate 16 0
  i := 0
  dt := 0
  st := 0
  pc := 0x0200
  sp := 0
  stack := Vector.replicate 16 0
  fault := none
  ram := []
  draws := 0

end Sys2Proof.Machine
end

