-- ==== Sys2Proof/Machine/Ops.lean ====
section
/-! DEFINITION. The named operations over registers and memory: register access (spec/10_state.md), memory
(spec/20_memory.md), the fetch and the program-counter controller (spec/40_cycle.md), fault entry
(spec/60_exceptions.md), reset (spec/70_reset_and_hazards.md). There is no return from a fault (R179). -/

namespace Sys2Proof.Machine

/-- What a step, a meaning or a boot answers. -/
abbrev Result := Host.Outcome State Fault Refusal

/-! Registers. -/

/-- `V[x]` (R20). -/
def State.reg (s : State) (x : Reg) : Byte := s.v.get x

/-- `V[x] <- b` (R20). -/
def State.setReg (s : State) (x : Reg) (b : Byte) : State := { s with v := s.v.set x.val b x.isLt }

/-- `VF` is `V[15]` (R21). -/
def flagReg : Reg := 15

/-- The value a flag write puts into all 8 bits of `VF`: "0x00 or 0x01" (R21). -/
def flagByte (flag : Bool) : Byte := if flag then 0x01 else 0x00

def State.setI (s : State) (a : Word) : State := { s with i := a }

def State.setDt (s : State) (b : Byte) : State := { s with dt := b }

def State.setSt (s : State) (b : Byte) : State := { s with st := b }

def State.setSp (s : State) (b : Byte) : State := { s with sp := b }

def State.setPc (s : State) (a : Word) : State := { s with pc := a }

/-- `stack[k]`, all 16 entries of it (R25). At 16 or more there is no entry, no run gets there, and the value
is free (log 13). -/
def State.stackEntry (s : State) (k : Byte) : Word :=
  if h : k.toNat < 16 then s.stack.get ⟨k.toNat, h⟩ else Config.strayStackEntry k

/-- `RandomByte()`, the byte drawn in this cycle (R10, R151). -/
def State.drawByte (s : State) : Byte := Config.randomByte s.draws

/-- One draw has been made (R151). -/
def State.afterDraw (s : State) : State := { s with draws := s.draws + 1 }

/-! Memory. -/

/-- An address is backed iff it is below `MEM_SIZE` (R45). -/
def backed (a : Nat) : Bool := a < Config.memSize

/-- What `ram` holds at an address the list does not name: the font at the start of memory, else the byte of
memory nothing was loaded to (R47, R194, D3). -/
def Memory.unlisted (a : Nat) : Byte :=
  if a < Config.fontSize then Config.font a else Config.unloadedByte

/-- The byte at a backed address. -/
def Memory.byteAt : Memory → Nat → Byte
  | [], a => Memory.unlisted a
  | (k, b) :: rest, a => if k = a then b else Memory.byteAt rest a

/-- `MemRead(a, 1)`: a byte where the address is backed (R10, R45). -/
def Memory.read (m : Memory) (a : Nat) : Option Byte :=
  if backed a then some (Memory.byteAt m a) else none

/-- A cell in front of a list, unless it says what an unlisted address says anyway. -/
def Memory.cons (a : Nat) (b : Byte) (m : Memory) : Memory :=
  if b = Memory.unlisted a then m else (a, b) :: m

/-- `ram[a] = b` in the canonical form. The core never writes `ram` (R44); the host's load path does (R6 e). -/
def Memory.insert : Memory → Nat → Byte → Memory
  | [], a, b => Memory.cons a b []
  | (k, c) :: rest, a, b =>
    if a < k then Memory.cons a b ((k, c) :: rest)
    else if a = k then Memory.cons a b rest
    else (k, c) :: Memory.insert rest a b

/-- A write by the load path; there is nothing to write at an address that is not backed. -/
def Memory.write (m : Memory) (a : Nat) (b : Byte) : Memory :=
  if backed a then Memory.insert m a b else m

/-- `m[a + j] = bytes[j]` for every `j` (R195). -/
def Memory.load (m : Memory) (a : Nat) : List Byte → Memory
  | [] => m
  | b :: rest => Memory.load (Memory.write m a b) (a + 1) rest

/-- Every listed address of a rising list is above `a`. -/
def Memory.headAbove (a : Nat) : Memory → Bool
  | [] => true
  | (k, _) :: _ => a < k

/-- A cell may stand at the head of a canonical list: backed, not what its address reads as unlisted, and below
every address after it. -/
def Memory.wfHead (a : Nat) (b : Byte) (rest : Memory) : Bool :=
  backed a && b != Memory.unlisted a && Memory.headAbove a rest

/-- The canonical form: addresses backed and strictly rising, no entry that says what an unlisted address
says. Equal memories are equal lists. -/
def Memory.wf : Memory → Bool
  | [] => true
  | (a, b) :: rest => Memory.wfHead a b rest && Memory.wf rest

/-! The cycle. -/

/-- The fetch: the bytes at `pc` and `pc + 1`, the sum taken without wrap-around, or nothing when
`pc + 1 >= MEM_SIZE` (R82, R83). No alignment is asked for (R43). -/
def State.fetch (s : State) : Option (Byte × Byte) :=
  if backed (s.pc.toNat + 1) then
    some (Memory.byteAt s.ram s.pc.toNat, Memory.byteAt s.ram (s.pc.toNat + 1))
  else none

/-- The directive of a cycle, "a transient three-variant result" (R11). -/
inductive NextPc where
  | next
  | skip
  | jump (target : Word)
  deriving DecidableEq, Repr

/-- What the program-counter controller makes of a directive: `pc + 2`, `pc + 4` modulo 65536, or the target
itself (R88, R89). -/
def NextPc.target : NextPc → Word → Word
  | .next, pc => pc + 2
  | .skip, pc => pc + 4
  | .jump a, _ => a

/-- `Skip` if the condition holds, else `Next` (R110 to R113). -/
def NextPc.skipIf (condition : Bool) : NextPc := if condition then .skip else .next

/-- The handler has made its writes and returned a directive, and the controller applies it (R86, R88). -/
def complete (directive : NextPc) (s : State) : Result := .next (s.setPc (directive.target s.pc))

/-- Fault entry (R177): nothing changes but `fault`, which takes the cause with the current `pc`. There is no
handler and no saved state. -/
def raise (cause : Word → Fault) (s : State) : Result := .next { s with fault := some (cause s.pc) }

/-- The code of a cause (R170). -/
def Fault.code : Fault → Nat
  | .fetchOutOfBounds _ => 1
  | .stackUnderflow _ => 2
  | .stackOverflow _ => 3
  | .arithmeticOverflow _ => 4

/-- The `pc` a fault records (R170). -/
def Fault.pc : Fault → Word
  | .fetchOutOfBounds a => a
  | .stackUnderflow a => a
  | .stackOverflow a => a
  | .arithmeticOverflow a => a

/-- The fault status output (R6 d): the code, 0 for no fault (R170). -/
def State.faultCode (s : State) : Nat :=
  match s.fault with
  | none => 0
  | some f => f.code

/-- The fault status output: the `pc` of the faulting cycle (R6 d, R170). -/
def State.faultPc (s : State) : Option Word := s.fault.map Fault.pc

/-- The reset input (R6 c, R190, R191): every register takes its reset value and `ram` is left to the host. The
draws already made stay made (log 15). -/
def assertReset (s : State) : State := { State.reset with ram := s.ram, draws := s.draws }

/-- A word put where the next cycle fetches it, by the load path. The core must not be stopped, and where
nothing can be fetched at `pc` the word is put at the program's start (log 14). -/
def State.placeWord (s : State) (b0 b1 : Byte) : State :=
  let pc : Word := if backed (s.pc.toNat + 1) then s.pc else State.reset.pc
  { s with
    fault := none
    pc := pc
    ram := Memory.write (Memory.write s.ram pc.toNat b0) (pc.toNat + 1) b1 }

end Sys2Proof.Machine
end

