-- ==== Sys2Proof/Machine/Operands.lean ====
section
/-! DEFINITION. The operand forms (spec/30_encoding.md R63; spec/10_state.md R26): a register operand is read
through `State.reg` as it stands at the start of the cycle; immediates and bytes are zero-extended where they
meet a 16-bit register, never sign-extended (R10). -/

namespace Sys2Proof.Machine

/-- `zext_16` of a byte (R10). -/
def zextByte (b : Byte) : Word := b.setWidth 16

/-- `zext_16` of an address immediate (R63): an absolute byte address. -/
def zextAddr (a : Addr) : Word := a.setWidth 16

/-- The target of `JP V0,addr`: `zext_16(nnn) + zext_16(V[0])`, not masked to 12 bits (R103). -/
def offsetTarget (nnn : Addr) (v0 : Byte) : Word := zextAddr nnn + zextByte v0

end Sys2Proof.Machine
end

