-- ==== Sys2Proof/Machine/Flags.lean ====
section
/-! DEFINITION. The ALU and its flag (spec/44_alu_register.md, spec/10_state.md R21, R26): what each operation
computes from the start-of-cycle operands, the one write-back that puts the flag and then the result into the
registers, and the narrowing of a sum under an overflow policy (R5, R121, R155, R174). -/

namespace Sys2Proof.Machine

/-- What an ALU operation writes: the flag if it has one, the result unless the operation is guarded off. -/
structure AluOut where
  flag : Option Bool
  result : Option Byte
  deriving DecidableEq, Repr

/-- A result without a flag: "no flag side effects" (R130 to R133). -/
def aluPlain (r : Byte) : AluOut := ⟨none, some r⟩

/-- `ADD`: "Sum computed in a widened 16-bit domain" (R134). -/
def aluAdd (a b : Byte) : AluOut :=
  let t := a.toNat + b.toNat
  ⟨some (decide (t > 255)), some (BitVec.ofNat 8 t)⟩

/-- `SUB` of `b` from `a`: the flag is the strict `a > b`, the result is there only if `a >= b` (R135). -/
def aluSub (a b : Byte) : AluOut :=
  ⟨some (decide (a.toNat > b.toNat)),
    if a.toNat ≥ b.toNat then some (BitVec.ofNat 8 (a.toNat - b.toNat)) else none⟩

/-- `SHR`: the flag is the bit shifted out, the shift is logical (R136). -/
def aluShr (a : Byte) : AluOut := ⟨some (a.toNat % 2 == 1), some (a >>> 1)⟩

/-- `SHL`: the flag is the bit shifted out, the result is `(a << 1) mod 256` (R138). -/
def aluShl (a : Byte) : AluOut := ⟨some (decide (a.toNat ≥ 128)), some (a <<< 1)⟩

/-- The flag write (R21). -/
def State.writeFlag (s : State) : Option Bool → State
  | none => s
  | some flag => s.setReg flagReg (flagByte flag)

/-- The result write. -/
def State.writeResult (s : State) (x : Reg) : Option Byte → State
  | none => s
  | some r => s.setReg x r

/-- "the flag write to VF comes first and the result write to V[x] second" (R26, D6; log 8). -/
def State.writeBack (s : State) (x : Reg) (out : AluOut) : State :=
  (s.writeFlag out.flag).writeResult x out.result

/-- A sum brought back to `w` bits: modulo `2^w` under `wrap`; nothing under `trap` when the true sum does not
fit (R121, R155, R174). -/
def narrowSum (policy : OverflowPolicy) (w t : Nat) : Option (BitVec w) :=
  match policy with
  | .wrap => some (BitVec.ofNat w t)
  | .trap => if t < 2 ^ w then some (BitVec.ofNat w t) else none

end Sys2Proof.Machine
end

