-- ==== Sys2Proof/Machine/Alu.lean ====
section
/-! DEFINITION. The ALU: register-register instructions (spec/44_alu_register.md). Operands are read before any
write; the flag is written first and the result second (R26). -/

namespace Sys2Proof.Machine

/-- `LD Vx,Vy` (R130). -/
def execLdVxVy (x y : Reg) (s : State) : Result := complete .next (s.writeBack x (aluPlain (s.reg y)))

/-- `OR Vx,Vy` (R131). -/
def execOrVxVy (x y : Reg) (s : State) : Result :=
  complete .next (s.writeBack x (aluPlain (s.reg x ||| s.reg y)))

/-- `AND Vx,Vy` (R132). -/
def execAndVxVy (x y : Reg) (s : State) : Result :=
  complete .next (s.writeBack x (aluPlain (s.reg x &&& s.reg y)))

/-- `XOR Vx,Vy` (R133). -/
def execXorVxVy (x y : Reg) (s : State) : Result :=
  complete .next (s.writeBack x (aluPlain (s.reg x ^^^ s.reg y)))

/-- `ADD Vx,Vy` (R134). -/
def execAddVxVy (x y : Reg) (s : State) : Result :=
  complete .next (s.writeBack x (aluAdd (s.reg x) (s.reg y)))

/-- `SUB Vx,Vy` (R135). -/
def execSubVxVy (x y : Reg) (s : State) : Result :=
  complete .next (s.writeBack x (aluSub (s.reg x) (s.reg y)))

/-- `SHR Vx` (R136): the one-register form, `y` ignored. -/
def execShrVx (x _y : Reg) (s : State) : Result := complete .next (s.writeBack x (aluShr (s.reg x)))

/-- `SUBN Vx,Vy` (R137): the operands of the subtraction exchanged, the destination still `V[x]`. -/
def execSubnVxVy (x y : Reg) (s : State) : Result :=
  complete .next (s.writeBack x (aluSub (s.reg y) (s.reg x)))

/-- `SHL Vx` (R138): the one-register form, `y` ignored. -/
def execShlVx (x _y : Reg) (s : State) : Result := complete .next (s.writeBack x (aluShl (s.reg x)))

end Sys2Proof.Machine
end

