-- ==== Sys2Proof/Machine/ControlFlow.lean ====
section
/-! DEFINITION. Control transfer and stack-pointer control (spec/41_control_flow.md). -/

namespace Sys2Proof.Machine

/-- `RET` (R100): the target is `stack[sp]` with the `sp` of the start of the cycle, nothing added. -/
def execRet (s : State) : Result :=
  if s.sp = 0 then raise .stackUnderflow s
  else complete (.jump (s.stackEntry s.sp)) (s.setSp (s.sp - 1))

/-- `JP addr` (R101). -/
def execJpAddr (nnn : Addr) (s : State) : Result := complete (.jump (zextAddr nnn)) s

/-- `CALL addr` (R102): no return address is written; the source's latent defect, preserved (D9, log 10). -/
def execCallAddr (nnn : Addr) (s : State) : Result :=
  if s.sp = 15 then raise .stackOverflow s
  else complete (.jump (zextAddr nnn)) (s.setSp (s.sp + 1))

/-- `JP V0,addr` (R103). -/
def execJpV0Addr (nnn : Addr) (s : State) : Result := complete (.jump (offsetTarget nnn (s.reg 0))) s

end Sys2Proof.Machine
end

