-- ==== Sys2Proof/Machine/DefaultNop.lean ====
section
/-! DEFINITION. The default no-operation (spec/46_default_nop.md). -/

namespace Sys2Proof.Machine

/-- Any word that matches no pattern (R160): no register, no memory, no fault, whatever the word. -/
def execNop (_w : Word) (s : State) : Result := complete .next s

end Sys2Proof.Machine
end

