-- ==== Sys2Proof/Machine/Immediate.lean ====
section
/-! DEFINITION. Register-immediate instructions (spec/43_immediate.md). -/

namespace Sys2Proof.Machine

/-- `LD Vx,byte` (R120). -/
def execLdVxByte (x : Reg) (kk : Byte) (s : State) : Result := complete .next (s.setReg x kk)

/-- `ADD Vx,byte` under either policy (R121, R174): `VF` is not written. -/
def addImmediate (policy : OverflowPolicy) (x : Reg) (kk : Byte) (s : State) : Result :=
  match narrowSum policy 8 ((s.reg x).toNat + kk.toNat) with
  | some r => complete .next (s.setReg x r)
  | none => raise .arithmeticOverflow s

/-- `ADD Vx,byte` (R121) under the policy decided (D5, log 7). -/
def execAddVxByte (x : Reg) (kk : Byte) (s : State) : Result := addImmediate Config.overflowPolicy x kk s

end Sys2Proof.Machine
end

