-- ==== Sys2Proof/Machine/IndexRandomTimer.lean ====
section
/-! DEFINITION. Index register, random and timer-register instructions (spec/45_index_random_timer.md). None
touches memory, and the timer registers are pure storage (R23, R183). -/

namespace Sys2Proof.Machine

/-- `LD I,addr` (R150). -/
def execLdIAddr (nnn : Addr) (s : State) : Result := complete .next (s.setI (zextAddr nnn))

/-- `RND Vx,byte` (R151): one draw, masked. -/
def execRndVxByte (x : Reg) (kk : Byte) (s : State) : Result :=
  complete .next (s.afterDraw.setReg x (kk &&& s.drawByte))

/-- `LD Vx,DT` (R152). -/
def execLdVxDt (x : Reg) (s : State) : Result := complete .next (s.setReg x s.dt)

/-- `LD DT,Vx` (R153). -/
def execLdDtVx (x : Reg) (s : State) : Result := complete .next (s.setDt (s.reg x))

/-- `LD ST,Vx` (R154). -/
def execLdStVx (x : Reg) (s : State) : Result := complete .next (s.setSt (s.reg x))

/-- `ADD I,Vx` under either policy (R155, R174): 16 bits, no 12-bit mask, `VF` not written. -/
def addIndex (policy : OverflowPolicy) (x : Reg) (s : State) : Result :=
  match narrowSum policy 16 (s.i.toNat + (s.reg x).toNat) with
  | some a => complete .next (s.setI a)
  | none => raise .arithmeticOverflow s

/-- `ADD I,Vx` (R155) under the policy decided (D5, log 7). -/
def execAddIVx (x : Reg) (s : State) : Result := addIndex Config.overflowPolicy x s

end Sys2Proof.Machine
end

