-- ==== Sys2Proof/Machine/Skips.lean ====
section
/-! DEFINITION. Conditional skips (spec/42_skips.md): equality of unsigned 8-bit values, no register written. -/

namespace Sys2Proof.Machine

/-- `SE Vx,byte` (R110). -/
def execSeVxByte (x : Reg) (kk : Byte) (s : State) : Result := complete (.skipIf (s.reg x == kk)) s

/-- `SNE Vx,byte` (R111). -/
def execSneVxByte (x : Reg) (kk : Byte) (s : State) : Result := complete (.skipIf (s.reg x != kk)) s

/-- `SE Vx,Vy` (R112). -/
def execSeVxVy (x y : Reg) (s : State) : Result := complete (.skipIf (s.reg x == s.reg y)) s

/-- `SNE Vx,Vy` (R113). -/
def execSneVxVy (x y : Reg) (s : State) : Result := complete (.skipIf (s.reg x != s.reg y)) s

end Sys2Proof.Machine
end

