-- ==== Sys2Proof/Machine/Step.lean ====
section
/-! DEFINITION. The step (spec/40_cycle.md R90): a faulted core does not cycle (R81), a fetch outside memory
faults (R83), else the decoded instruction runs. -/

namespace Sys2Proof.Machine

/-- One cycle (R80, R90). -/
def step (s : State) : Host.Outcome State Fault Refusal :=
  match s.fault with
  | some _ => .next s
  | none =>
    match s.fetch with
    | none => raise .fetchOutOfBounds s
    | some (b0, b1) => exec (decodeBytes b0 b1) s

/-- The state with an instruction word placed where the next step fetches; it stands for the host's load path
(log 14). -/
def State.withFetchWord (s : State) (nbits w : Nat) : State :=
  let word : Word := BitVec.ofNat 16 (w % 2 ^ nbits)
  s.placeWord (word.extractLsb' 8 8) (word.extractLsb' 0 8)

end Sys2Proof.Machine
end

