-- ==== Sys2Proof/Machine/Boot.lean ====
section
/-! DEFINITION. Boot (spec/70_reset_and_hazards.md R193 to R196): what the host's load path leaves before the
first cycle. Reset, cleared memory and the font are `State.reset` (its unlisted bytes); the ROM is copied here. -/

namespace Sys2Proof.Machine

/-- "A ROM must fit" (R196). -/
def romFits (rom : List Byte) : Bool := rom.length ≤ Config.memSize - Config.romBase

/-- Boot with a ROM (R193, R195); a ROM that does not fit is refused (R196, D22). -/
def boot (rom : List Byte) : Result :=
  if romFits rom then .next { State.reset with ram := Memory.load State.reset.ram Config.romBase rom }
  else .refused (.romTooLong rom.length)

end Sys2Proof.Machine
end

