-- ==== Sys2Proof/Safety.lean ====
section
/-! DEFINITION. The terms claims are stated in: the places of the state and what an instruction reads and writes
(spec/10_state.md R34), directives (spec/40_cycle.md R87), where a handler faults (spec/60_exceptions.md R170),
the invariant of the machine, and the end of a run (spec/70_reset_and_hazards.md R199; R181). -/

namespace Sys2Proof.Machine

/-- A place of the state: one register, one stack entry, one byte of memory. -/
inductive Place where
  | v (x : Reg)
  | i
  | dt
  | st
  | pc
  | sp
  | stack (k : Fin 16)
  | fault
  | ram (a : Nat)
  | draws
  deriving DecidableEq, Repr

/-- Two states hold the same at a place; memory is compared through the read of one byte. -/
def Place.same (p : Place) (s t : State) : Prop :=
  match p with
  | .v x => t.reg x = s.reg x
  | .i => t.i = s.i
  | .dt => t.dt = s.dt
  | .st => t.st = s.st
  | .pc => t.pc = s.pc
  | .sp => t.sp = s.sp
  | .stack k => t.stack.get k = s.stack.get k
  | .fault => t.fault = s.fault
  | .ram a => Memory.read t.ram a = Memory.read s.ram a
  | .draws => t.draws = s.draws

/-- The two states hold the same at every place of the list. -/
def sameOn (places : List Place) (s t : State) : Prop := ∀ p ∈ places, p.same s t

/-- `t` holds what `s` holds at every place outside the list: the frame of a change from `s` to `t`. -/
def writesOnly (written : List Place) (s t : State) : Prop := ∀ p, p ∉ written → p.same s t

/-- The "writes" column of R34 (and the model's own count of draws). A cycle that faults writes `fault` alone
instead (R177). -/
def writeSet : Instr → List Place
  | .ret => [.sp, .pc]
  | .jpAddr _ => [.pc]
  | .callAddr _ => [.sp, .pc]
  | .seVxByte _ _ => [.pc]
  | .sneVxByte _ _ => [.pc]
  | .seVxVy _ _ => [.pc]
  | .ldVxByte x _ => [.v x, .pc]
  | .addVxByte x _ => [.v x, .pc]
  | .ldVxVy x _ => [.v x, .pc]
  | .orVxVy x _ => [.v x, .pc]
  | .andVxVy x _ => [.v x, .pc]
  | .xorVxVy x _ => [.v x, .pc]
  | .addVxVy x _ => [.v 15, .v x, .pc]
  | .subVxVy x _ => [.v 15, .v x, .pc]
  | .shrVx x _ => [.v 15, .v x, .pc]
  | .subnVxVy x _ => [.v 15, .v x, .pc]
  | .shlVx x _ => [.v 15, .v x, .pc]
  | .sneVxVy _ _ => [.pc]
  | .ldIAddr _ => [.i, .pc]
  | .jpV0Addr _ => [.pc]
  | .rndVxByte x _ => [.v x, .pc, .draws]
  | .ldVxDt x => [.v x, .pc]
  | .ldDtVx _ => [.dt, .pc]
  | .ldStVx _ => [.st, .pc]
  | .addIVx _ => [.i, .pc]
  | .nop _ => [.pc]

/-- The "reads" column of R34; the random input is the draw that comes next. -/
def readSet : Instr → State → List Place
  | .ret, s => if h : s.sp.toNat < 16 then [.sp, .stack ⟨s.sp.toNat, h⟩] else [.sp]
  | .jpAddr _, _ => []
  | .callAddr _, _ => [.sp]
  | .seVxByte x _, _ => [.v x]
  | .sneVxByte x _, _ => [.v x]
  | .seVxVy x y, _ => [.v x, .v y]
  | .ldVxByte _ _, _ => []
  | .addVxByte x _, _ => [.v x]
  | .ldVxVy _ y, _ => [.v y]
  | .orVxVy x y, _ => [.v x, .v y]
  | .andVxVy x y, _ => [.v x, .v y]
  | .xorVxVy x y, _ => [.v x, .v y]
  | .addVxVy x y, _ => [.v x, .v y]
  | .subVxVy x y, _ => [.v x, .v y]
  | .shrVx x _, _ => [.v x]
  | .subnVxVy x y, _ => [.v x, .v y]
  | .shlVx x _, _ => [.v x]
  | .sneVxVy x y, _ => [.v x, .v y]
  | .ldIAddr _, _ => []
  | .jpV0Addr _, _ => [.v 0]
  | .rndVxByte _ _, _ => [.draws]
  | .ldVxDt _, _ => [.dt]
  | .ldDtVx x, _ => [.v x]
  | .ldStVx x, _ => [.v x]
  | .addIVx x, _ => [.i, .v x]
  | .nop _, _ => []

/-- Which directive each instruction returns (R87). -/
def directiveOf : Instr → State → NextPc
  | .ret, s => .jump (s.stackEntry s.sp)
  | .jpAddr nnn, _ => .jump (BitVec.ofNat 16 nnn.toNat)
  | .callAddr nnn, _ => .jump (BitVec.ofNat 16 nnn.toNat)
  | .jpV0Addr nnn, s => .jump (BitVec.ofNat 16 (nnn.toNat + (s.reg 0).toNat))
  | .seVxByte x kk, s => if s.reg x = kk then .skip else .next
  | .sneVxByte x kk, s => if s.reg x = kk then .next else .skip
  | .seVxVy x y, s => if s.reg x = s.reg y then .skip else .next
  | .sneVxVy x y, s => if s.reg x = s.reg y then .next else .skip
  | .ldVxByte _ _, _ => .next
  | .addVxByte _ _, _ => .next
  | .ldVxVy _ _, _ => .next
  | .orVxVy _ _, _ => .next
  | .andVxVy _ _, _ => .next
  | .xorVxVy _ _, _ => .next
  | .addVxVy _ _, _ => .next
  | .subVxVy _ _, _ => .next
  | .shrVx _ _, _ => .next
  | .subnVxVy _ _, _ => .next
  | .shlVx _ _, _ => .next
  | .ldIAddr _, _ => .next
  | .rndVxByte _ _, _ => .next
  | .ldVxDt _, _ => .next
  | .ldDtVx _, _ => .next
  | .ldStVx _, _ => .next
  | .addIVx _, _ => .next
  | .nop _, _ => .next

/-- The cause a handler raises, where it raises one under the policy decided (R170, R175). -/
def handlerFault (i : Instr) (s : State) : Option Fault :=
  match i with
  | .ret => if s.sp = 0 then some (.stackUnderflow s.pc) else none
  | .callAddr _ => if s.sp = 15 then some (.stackOverflow s.pc) else none
  | _ => none

/-- The instruction writes `VF` as a side effect: "Exactly five instructions" (R21). -/
def writesFlag : Instr → Bool
  | .addVxVy _ _ => true
  | .subVxVy _ _ => true
  | .shrVx _ _ => true
  | .subnVxVy _ _ => true
  | .shlVx _ _ => true
  | _ => false

/-- The place a row of R66 has in the opcode map, counted from 0. -/
def rowNumber : Instr → Nat
  | .ret => 0
  | .jpAddr _ => 1
  | .callAddr _ => 2
  | .seVxByte _ _ => 3
  | .sneVxByte _ _ => 4
  | .seVxVy _ _ => 5
  | .ldVxByte _ _ => 6
  | .addVxByte _ _ => 7
  | .ldVxVy _ _ => 8
  | .orVxVy _ _ => 9
  | .andVxVy _ _ => 10
  | .xorVxVy _ _ => 11
  | .addVxVy _ _ => 12
  | .subVxVy _ _ => 13
  | .shrVx _ _ => 14
  | .subnVxVy _ _ => 15
  | .shlVx _ _ => 16
  | .sneVxVy _ _ => 17
  | .ldIAddr _ => 18
  | .jpV0Addr _ => 19
  | .rndVxByte _ _ => 20
  | .ldVxDt _ => 21
  | .ldDtVx _ => 22
  | .ldStVx _ => 23
  | .addIVx _ => 24
  | .nop _ => 25

/-- The `mask` and `match` columns of R66, copied from its table. -/
def maskMatch : List (Word × Word) :=
  [(0xFFFF, 0x00EE), (0xF000, 0x1000), (0xF000, 0x2000), (0xF000, 0x3000), (0xF000, 0x4000),
   (0xF00F, 0x5000), (0xF000, 0x6000), (0xF000, 0x7000), (0xF00F, 0x8000), (0xF00F, 0x8001),
   (0xF00F, 0x8002), (0xF00F, 0x8003), (0xF00F, 0x8004)] ++
  [(0xF00F, 0x8005), (0xF00F, 0x8006), (0xF00F, 0x8007), (0xF00F, 0x800E), (0xF00F, 0x9000),
   (0xF000, 0xA000), (0xF000, 0xB000), (0xF000, 0xC000), (0xF0FF, 0xF007), (0xF0FF, 0xF015),
   (0xF0FF, 0xF018), (0xF0FF, 0xF01E), (0x0000, 0x0000)]

/-- `k` cycles from a state (R80, R198). It is the run of Host/Core.lean (`runCycles_eq_core_run`). -/
def runCycles : Nat → State → Result
  | 0, s => .next s
  | k + 1, s =>
    match step s with
    | .next t => runCycles k t
    | .fault r => .fault r
    | .refused r => .refused r

/-- What a recorded fault says of the state it stopped: the recorded `pc` is the `pc` it keeps, and the condition
of R170 still holds, since the faulting cycle changed nothing else (R177). Under `wrap` code 4 never appears (R174). -/
def faultExplained (s : State) : Bool :=
  match s.fault with
  | none => true
  | some (.fetchOutOfBounds a) => a == s.pc && decide (s.pc.toNat + 1 ≥ Config.memSize)
  | some (.stackUnderflow a) => a == s.pc && s.sp == 0
  | some (.stackOverflow a) => a == s.pc && s.sp == 15
  | some (.arithmeticOverflow _) => false

/-- The invariant of the machine: "`sp` must lie in [0,15]" (R25, R33 b), memory keeps its canonical form, and a
recorded fault explains the state. -/
structure State.Inv (s : State) : Prop where
  sp : s.sp.toNat < 16
  ram : Memory.wf s.ram = true
  fault : faultExplained s = true

/-- A state whose next instruction is a `JP` to its own address (R199). -/
def settled (s : State) : Bool :=
  match s.fetch with
  | none => false
  | some (b0, b1) => decide (s.pc.toNat ≤ 0xFFF) && b0.toNat * 256 + b1.toNat == 0x1000 + s.pc.toNat

/-- "A run ends successfully when it reaches a settled state with `fault = None`" (R199, D17; R181; log 20). -/
def endsSuccessfully (s : State) : Bool := settled s && s.fault == none

end Sys2Proof.Machine
end

