-- ==== Sys2Proof/Certificates/Slice0/Obligations.lean ====
section
/-! DEFINITION. Statements for the provers, about CHIP8-CORE as its spec gives it. "R<n>" is a numbered rule and
"D<n>" a decision of the spec; `writesOnly` is the frame of an instruction (every place of the state outside the
list, every byte of memory among them, is unchanged). Where a statement of an instruction's rule gives its word, that
is the rule's own "Encoding"; which of these numbers the spec took from general knowledge is its D20 (log 18). What
`.next` and `.skip` make of `pc` is `NextPc.target` (R88; the wrap past 0xFFFF is D18, log 17). -/

open Sys2Proof Sys2Proof.Machine

/-! Encoding. -/

/-- Words the spec writes out (95_test_vectors.md, 30_encoding.md R72), at least one of each family, decode to the
instruction they stand for. The opcode numbers the source does not give are the spec's decision D20 (log 18). -/
def Obligations.WrittenOutWordsDecode : Prop :=
  decodeTableWord 16 0x00EE = some .ret ∧
  decodeTableWord 16 0x1123 = some (.jpAddr 0x123) ∧
  decodeTableWord 16 0x2206 = some (.callAddr 0x206) ∧
  decodeTableWord 16 0x4311 = some (.sneVxByte 3 0x11) ∧
  decodeTableWord 16 0x6005 = some (.ldVxByte 0 5) ∧
  decodeTableWord 16 0x7003 = some (.addVxByte 0 3) ∧
  decodeTableWord 16 0x8204 = some (.addVxVy 2 0) ∧
  decodeTableWord 16 0x8F15 = some (.subVxVy 15 1) ∧
  decodeTableWord 16 0x9090 = some (.sneVxVy 0 9) ∧
  decodeTableWord 16 0xB204 = some (.jpV0Addr 0x204) ∧
  decodeTableWord 16 0xC2F0 = some (.rndVxByte 2 0xF0) ∧
  decodeTableWord 16 0xF015 = some (.ldDtVx 0) ∧
  decodeTableWord 16 0xF01E = some (.addIVx 0) ∧
  decodeTableWord 16 0x00E0 = some (.nop 0x00E0)

/-- Every well-formed instruction, with every operand at every value, is what its own bytes decode to, and the
decoder leaves the bytes that follow (R60, R66, R72). -/
def Obligations.DecodeOfEncodeIsTheInstruction : Prop :=
  ∀ (i : Instr) (rest : List Byte), i.wf = true → decode (encode i ++ rest) = .ok (i, rest)

/-- Any two bytes decode to a well-formed instruction whose encoding is those two bytes: no bit of a word is lost
(R60, R68, R72). -/
def Obligations.EncodeOfDecodeIsTheWord : Prop :=
  ∀ b0 b1 : Byte, (decodeBytes b0 b1).wf = true ∧ encode (decodeBytes b0 b1) = [b0, b1]

/-- R64: "The dispatcher's result for a word is the first row of the table in rule R66 that it matches, and the default
row matches every word", with `w` matching a row iff `w & mask = match`. -/
def Obligations.FirstMatchingRowIsSelected : Prop :=
  ∀ w : Word,
    maskMatch.findIdx? (fun row => w &&& row.1 == row.2) = some (rowNumber (decodeWord w)) ∧
    ∃ row, maskMatch[25]? = some row ∧ w &&& row.1 = row.2

/-- The 25 patterns before the default row are pairwise disjoint (R65, which the spec derives). -/
def Obligations.PatternsArePairwiseDisjoint : Prop :=
  ∀ (w : Word) (j k : Nat) (p q : Word × Word), j < k → k < 25 →
    maskMatch[j]? = some p → maskMatch[k]? = some q → w &&& p.1 = p.2 → w &&& q.1 ≠ q.2

/-- The words that take the default rule are exactly those the table of R68 lists (which the spec derives). -/
def Obligations.DefaultTakesExactlyTheListedWords : Prop :=
  ∀ w : Word, (isDefaultWord w = true ↔ decodeWord w = .nop w) ∧ ∀ v, decodeWord w = .nop v → v = w

/-- R84: the four fields are the nibbles of the two bytes in order, `kk` and `nnn` are put together from them, and
"The decoder is total: every pair of bytes decodes". The last clause is the MODEL'S CHOICE, not R84's: a byte string of
fewer than the two bytes of R60 is rejected by name (log 26). -/
def Obligations.DecoderSplitsBytesIntoFields : Prop :=
  (∀ b0 b1 : Byte,
    let f := Fields.ofBytes b0 b1
    f.op.toNat = b0.toNat / 16 ∧ f.x.toNat = b0.toNat % 16 ∧
    f.y.toNat = b1.toNat / 16 ∧ f.n.toNat = b1.toNat % 16 ∧
    f.kk = b1 ∧ f.nnn.toNat = f.x.toNat * 256 + f.y.toNat * 16 + f.n.toNat) ∧
  (∀ (b0 b1 : Byte) (rest : List Byte), ∃ i, decode (b0 :: b1 :: rest) = .ok (i, rest)) ∧
  (∀ bytes : List Byte, bytes.length < 2 → decode bytes = .error .truncated)

/-! The cycle. -/

/-- When the bytes at `pc` decode to an instruction, a step of a core that is not faulted is that instruction's meaning
and nothing around it: the controller's advance is part of the meaning (R86, R88, R90). -/
def Obligations.StepRunsTheDecodedInstruction : Prop :=
  ∀ (s : State) (b0 b1 : Byte) (i : Instr), s.fault = none →
    Memory.read s.ram s.pc.toNat = some b0 → Memory.read s.ram (s.pc.toNat + 1) = some b1 →
    decode [b0, b1] = .ok (i, []) → i.wf = true → step s = exec i s

/-- R83: a fetch with `pc + 1 >= MEM_SIZE` faults and nothing else happens; otherwise the two bytes at `pc` and `pc + 1`
are read and the word `(b0 << 8) + b1` runs, whatever the parity of `pc`. -/
def Obligations.FetchReadsTwoBytesOrFaults : Prop :=
  ∀ s : State, s.fault = none →
    (s.pc.toNat + 1 ≥ Config.memSize →
      step s = .next { s with fault := some (.fetchOutOfBounds s.pc) }) ∧
    (s.pc.toNat + 1 < Config.memSize →
      ∃ b0 b1, Memory.read s.ram s.pc.toNat = some b0 ∧ Memory.read s.ram (s.pc.toNat + 1) = some b1 ∧
        step s = exec (decodeWord (BitVec.ofNat 16 (b0.toNat * 256 + b1.toNat))) s)

/-- A faulted core stays as it is for any number of cycles (R81, by the spec's decision D21; log 1). -/
def Obligations.FaultedCoreNeverChanges : Prop :=
  ∀ (k : Nat) (s : State), s.fault.isSome = true → runCycles k s = .next s

/-- A step has a next state from every state, and so has every instruction: nothing is refused and no run gets stuck
(R7; that a fault is held in a next state is R90 and log 1). -/
def Obligations.EveryCycleAnswersANextState : Prop :=
  (∀ s : State, ∃ t, step s = .next t) ∧ (∀ (i : Instr) (s : State), ∃ t, exec i s = .next t)

/-- Every instruction that does not fault moves `pc` as its directive of R87 says: by 2, by 4, or to the target, with no
2 added (R88). Reducing the sums modulo 65536 is the spec's decision D18 (log 17). -/
def Obligations.DirectiveMovesThePc : Prop :=
  ∀ (i : Instr) (s t : State), exec i s = .next t → handlerFault i s = none →
    t.pc.toNat = match directiveOf i s with
      | .next => (s.pc.toNat + 2) % 65536
      | .skip => (s.pc.toNat + 4) % 65536
      | .jump a => a.toNat

/-! Control transfer. -/

/-- `RET` above an empty stack: `pc` takes `stack[sp]` itself and `sp` goes down by one. That `sp` in [0,15] names an entry is
the invariant of R25; above it the target is the model's free value (log 13). -/
def Obligations.RetJumpsToTheStackEntry : Prop :=
  ∀ s : State, s.sp ≠ 0 →
    decodeWord 0x00EE = .ret ∧
    ∃ t, exec .ret s = .next t ∧ (∀ h : s.sp.toNat < 16, t.pc = s.stack.get ⟨s.sp.toNat, h⟩) ∧
      t.sp.toNat = s.sp.toNat - 1 ∧ writesOnly [.sp, .pc] s t

/-- `RET` at `sp = 0` faults and changes nothing but `fault` (the spec's decisions D7 and D12; log 9). -/
def Obligations.RetOnEmptyStackFaults : Prop :=
  ∀ s : State, s.sp = 0 → exec .ret s = .next { s with fault := some (.stackUnderflow s.pc) }

/-- R101: `JP addr` sets `pc` to the zero-extended address and touches nothing else; a jump to its own address leaves the
state as it was. -/
def Obligations.JpSetsPcToTheAddress : Prop :=
  ∀ (nnn : Addr) (s : State),
    decodeWord (BitVec.ofNat 16 (0x1000 + nnn.toNat)) = .jpAddr nnn ∧
    ∃ t, exec (.jpAddr nnn) s = .next t ∧ t.pc.toNat = nnn.toNat ∧ writesOnly [.pc] s t ∧
      (s.pc.toNat = nnn.toNat → t = s)

/-- `CALL addr` below `sp = 15`: `sp` goes up by one, `pc` takes the address, and NO return address is written (the source's
defect, preserved by D9; log 10). -/
def Obligations.CallCountsAndJumps : Prop :=
  ∀ (nnn : Addr) (s : State), s.sp ≠ 15 →
    decodeWord (BitVec.ofNat 16 (0x2000 + nnn.toNat)) = .callAddr nnn ∧
    ∃ t, exec (.callAddr nnn) s = .next t ∧ t.pc.toNat = nnn.toNat ∧
      (s.sp.toNat < 16 → t.sp.toNat = s.sp.toNat + 1) ∧ t.stack = s.stack ∧ writesOnly [.sp, .pc] s t

/-- `CALL addr` at `sp = 15` faults and changes nothing but `fault` (the spec's decisions D8 and D12; log 9). -/
def Obligations.CallOnFullStackFaults : Prop :=
  ∀ (nnn : Addr) (s : State), s.sp = 15 →
    exec (.callAddr nnn) s = .next { s with fault := some (.stackOverflow s.pc) }

/-- R103: `JP V0,addr` sets `pc` to the address plus the unsigned `V[0]`, not masked to 12 bits. -/
def Obligations.JpV0AddsTheOffset : Prop :=
  ∀ (nnn : Addr) (s : State),
    decodeWord (BitVec.ofNat 16 (0xB000 + nnn.toNat)) = .jpV0Addr nnn ∧
    ∃ t, exec (.jpV0Addr nnn) s = .next t ∧ t.pc.toNat = nnn.toNat + (s.reg 0).toNat ∧ writesOnly [.pc] s t

/-! Conditional skips. -/

/-- R110: `SE Vx,byte` skips when `V[x]` equals the immediate, and writes no register. -/
def Obligations.SeByteSkipsOnEqual : Prop :=
  ∀ (x : Reg) (kk : Byte) (s : State),
    decodeWord (BitVec.ofNat 16 (0x3000 + x.val * 256 + kk.toNat)) = .seVxByte x kk ∧
    ∃ t, exec (.seVxByte x kk) s = .next t ∧ writesOnly [.pc] s t ∧
      (s.reg x = kk → t.pc = NextPc.target .skip s.pc) ∧ (s.reg x ≠ kk → t.pc = NextPc.target .next s.pc)

/-- R111, with its corner case: the exact complement of `SE Vx,byte`. -/
def Obligations.SneByteSkipsOnDifferent : Prop :=
  ∀ (x : Reg) (kk : Byte) (s : State),
    decodeWord (BitVec.ofNat 16 (0x4000 + x.val * 256 + kk.toNat)) = .sneVxByte x kk ∧
    ∃ t, exec (.sneVxByte x kk) s = .next t ∧ writesOnly [.pc] s t ∧
      (s.reg x ≠ kk → t.pc = NextPc.target .skip s.pc) ∧ (s.reg x = kk → t.pc = NextPc.target .next s.pc) ∧
      ∃ u, exec (.seVxByte x kk) s = .next u ∧
        (t.pc = NextPc.target .skip s.pc ↔ u.pc = NextPc.target .next s.pc)

/-- R112: `5xy0`; `x = y` always skips; `5xyn` with another `n` is the default no-operation. -/
def Obligations.SeRegistersSkipsOnEqual : Prop :=
  ∀ (x y : Reg) (s : State),
    decodeWord (BitVec.ofNat 16 (0x5000 + x.val * 256 + y.val * 16)) = .seVxVy x y ∧
    (∀ n : Nat, 0 < n → n < 16 →
      decodeWord (BitVec.ofNat 16 (0x5000 + x.val * 256 + y.val * 16 + n)) =
        .nop (BitVec.ofNat 16 (0x5000 + x.val * 256 + y.val * 16 + n))) ∧
    ∃ t, exec (.seVxVy x y) s = .next t ∧ writesOnly [.pc] s t ∧
      (s.reg x = s.reg y → t.pc = NextPc.target .skip s.pc) ∧
      (s.reg x ≠ s.reg y → t.pc = NextPc.target .next s.pc)

/-- R113: `9xy0`; `x = y` never skips; `9xyn` with another `n` is the default no-operation. -/
def Obligations.SneRegistersSkipsOnDifferent : Prop :=
  ∀ (x y : Reg) (s : State),
    decodeWord (BitVec.ofNat 16 (0x9000 + x.val * 256 + y.val * 16)) = .sneVxVy x y ∧
    (∀ n : Nat, 0 < n → n < 16 →
      decodeWord (BitVec.ofNat 16 (0x9000 + x.val * 256 + y.val * 16 + n)) =
        .nop (BitVec.ofNat 16 (0x9000 + x.val * 256 + y.val * 16 + n))) ∧
    ∃ t, exec (.sneVxVy x y) s = .next t ∧ writesOnly [.pc] s t ∧
      (s.reg x ≠ s.reg y → t.pc = NextPc.target .skip s.pc) ∧
      (s.reg x = s.reg y → t.pc = NextPc.target .next s.pc)

/-! Register-immediate. -/

/-- R120: `V[x] <- kk`, with `kk` the number `(k1 << 4) + k2` of its two nibbles. -/
def Obligations.LdByteLoadsTheImmediate : Prop :=
  ∀ (x : Reg) (k1 k2 : Nibble) (s : State),
    decodeWord (BitVec.ofNat 16 (0x6000 + x.val * 256 + k1.toNat * 16 + k2.toNat)) = .ldVxByte x (k1 ++ k2) ∧
    ∃ t, exec (.ldVxByte x (k1 ++ k2)) s = .next t ∧ (t.reg x).toNat = k1.toNat * 16 + k2.toNat ∧
      t.pc = NextPc.target .next s.pc ∧ writesOnly [.v x, .pc] s t

/-- `ADD Vx,byte`: the sum modulo 256, `VF` not written unless it is `V[x]`. The wrap is the spec's decision D5 (log 7). -/
def Obligations.AddByteWrapsWithoutFlag : Prop :=
  ∀ (x : Reg) (kk : Byte) (s : State),
    decodeWord (BitVec.ofNat 16 (0x7000 + x.val * 256 + kk.toNat)) = .addVxByte x kk ∧
    ∃ t, exec (.addVxByte x kk) s = .next t ∧ (t.reg x).toNat = ((s.reg x).toNat + kk.toNat) % 256 ∧
      t.pc = NextPc.target .next s.pc ∧ writesOnly [.v x, .pc] s t

/-! The ALU. -/

/-- R130: `V[x] <- V[y]`, no flag; `x = y` changes no register. -/
def Obligations.LdRegisterCopies : Prop :=
  ∀ (x y : Reg) (s : State),
    decodeWord (BitVec.ofNat 16 (0x8000 + x.val * 256 + y.val * 16)) = .ldVxVy x y ∧
    ∃ t, exec (.ldVxVy x y) s = .next t ∧ t.reg x = s.reg y ∧ t.pc = NextPc.target .next s.pc ∧
      writesOnly [.v x, .pc] s t ∧ (x = y → writesOnly [.pc] s t)

/-- R131, bit by bit. -/
def Obligations.OrIsBitwise : Prop :=
  ∀ (x y : Reg) (s : State),
    decodeWord (BitVec.ofNat 16 (0x8001 + x.val * 256 + y.val * 16)) = .orVxVy x y ∧
    ∃ t, exec (.orVxVy x y) s = .next t ∧
      (∀ k, (t.reg x).getLsbD k = ((s.reg x).getLsbD k || (s.reg y).getLsbD k)) ∧
      t.pc = NextPc.target .next s.pc ∧ writesOnly [.v x, .pc] s t ∧ (x = y → writesOnly [.pc] s t)

/-- R132, bit by bit. -/
def Obligations.AndIsBitwise : Prop :=
  ∀ (x y : Reg) (s : State),
    decodeWord (BitVec.ofNat 16 (0x8002 + x.val * 256 + y.val * 16)) = .andVxVy x y ∧
    ∃ t, exec (.andVxVy x y) s = .next t ∧
      (∀ k, (t.reg x).getLsbD k = ((s.reg x).getLsbD k && (s.reg y).getLsbD k)) ∧
      t.pc = NextPc.target .next s.pc ∧ writesOnly [.v x, .pc] s t ∧ (x = y → writesOnly [.pc] s t)

/-- R133, bit by bit; `x = y` gives 0. -/
def Obligations.XorIsBitwise : Prop :=
  ∀ (x y : Reg) (s : State),
    decodeWord (BitVec.ofNat 16 (0x8003 + x.val * 256 + y.val * 16)) = .xorVxVy x y ∧
    ∃ t, exec (.xorVxVy x y) s = .next t ∧
      (∀ k, (t.reg x).getLsbD k = xor ((s.reg x).getLsbD k) ((s.reg y).getLsbD k)) ∧
      t.pc = NextPc.target .next s.pc ∧ writesOnly [.v x, .pc] s t ∧ (x = y → t.reg x = 0)

/-- R134: the result is the sum modulo 256 for every `x` and `y`; for `x` other than 15 the flag is 1 iff the sum of the
two original values exceeds 255; for `x = 15` the result is written last, so `VF` is the sum and the carry is lost. -/
def Obligations.AddSetsCarryThenResult : Prop :=
  ∀ (x y : Reg) (s : State),
    decodeWord (BitVec.ofNat 16 (0x8004 + x.val * 256 + y.val * 16)) = .addVxVy x y ∧
    ∃ t, exec (.addVxVy x y) s = .next t ∧
      (t.reg x).toNat = ((s.reg x).toNat + (s.reg y).toNat) % 256 ∧
      (x ≠ 15 → t.reg 15 = if (s.reg x).toNat + (s.reg y).toNat > 255 then 1 else 0) ∧
      t.pc = NextPc.target .next s.pc ∧ writesOnly [.v 15, .v x, .pc] s t

/-- `SUB Vx,Vy`: subtraction only when `Vx >= Vy`, flag the strict `Vx > Vy`. For `x = 15` the result write stands last, and
for `y = 15` the operand is the old `VF`: the spec's decision D6 (log 8). -/
def Obligations.SubIsGuardedWithStrictFlag : Prop :=
  ∀ (x y : Reg) (s : State),
    decodeWord (BitVec.ofNat 16 (0x8005 + x.val * 256 + y.val * 16)) = .subVxVy x y ∧
    ∃ t, exec (.subVxVy x y) s = .next t ∧
      ((s.reg x).toNat ≥ (s.reg y).toNat → (t.reg x).toNat = (s.reg x).toNat - (s.reg y).toNat) ∧
      ((s.reg x).toNat < (s.reg y).toNat → t.reg x = if x = 15 then 0 else s.reg x) ∧
      (x ≠ 15 → t.reg 15 = if (s.reg x).toNat > (s.reg y).toNat then 1 else 0) ∧
      t.pc = NextPc.target .next s.pc ∧ writesOnly [.v 15, .v x, .pc] s t

/-- `SHR Vx`: half of `Vx`, flag the bit shifted out, `y` of no effect. For `x = 15` the shifted-out bit is lost: the
spec's decision D6 (log 8). -/
def Obligations.ShrHalvesAndFlagsLowBit : Prop :=
  ∀ (x y : Reg) (s : State),
    decodeWord (BitVec.ofNat 16 (0x8006 + x.val * 256 + y.val * 16)) = .shrVx x y ∧
    (∀ z : Reg, exec (.shrVx x z) s = exec (.shrVx x y) s) ∧
    ∃ t, exec (.shrVx x y) s = .next t ∧
      (t.reg x).toNat = (s.reg x).toNat / 2 ∧
      (x ≠ 15 → (t.reg 15).toNat = (s.reg x).toNat % 2) ∧
      t.pc = NextPc.target .next s.pc ∧ writesOnly [.v 15, .v x, .pc] s t

/-- `SUBN Vx,Vy`: `Vy - Vx` into `Vx` only when `Vy >= Vx`, flag the strict `Vy > Vx`. The cases that name `VF` rest on the
spec's decision D6 (log 8). -/
def Obligations.SubnIsGuardedWithStrictFlag : Prop :=
  ∀ (x y : Reg) (s : State),
    decodeWord (BitVec.ofNat 16 (0x8007 + x.val * 256 + y.val * 16)) = .subnVxVy x y ∧
    ∃ t, exec (.subnVxVy x y) s = .next t ∧
      ((s.reg y).toNat ≥ (s.reg x).toNat → (t.reg x).toNat = (s.reg y).toNat - (s.reg x).toNat) ∧
      ((s.reg y).toNat < (s.reg x).toNat → t.reg x = if x = 15 then 0 else s.reg x) ∧
      (x ≠ 15 → t.reg 15 = if (s.reg y).toNat > (s.reg x).toNat then 1 else 0) ∧
      t.pc = NextPc.target .next s.pc ∧ writesOnly [.v 15, .v x, .pc] s t

/-- `SHL Vx`: twice `Vx` modulo 256, flag the bit shifted out, `y` of no effect. For `x = 15` the shifted-out bit is lost:
the spec's decision D6 (log 8). -/
def Obligations.ShlDoublesAndFlagsHighBit : Prop :=
  ∀ (x y : Reg) (s : State),
    decodeWord (BitVec.ofNat 16 (0x800E + x.val * 256 + y.val * 16)) = .shlVx x y ∧
    (∀ z : Reg, exec (.shlVx x z) s = exec (.shlVx x y) s) ∧
    ∃ t, exec (.shlVx x y) s = .next t ∧
      (t.reg x).toNat = (s.reg x).toNat * 2 % 256 ∧
      (x ≠ 15 → (t.reg 15).toNat = (s.reg x).toNat / 128) ∧
      t.pc = NextPc.target .next s.pc ∧ writesOnly [.v 15, .v x, .pc] s t

/-- What the flag-writing instructions leave in `VF` when they name it as destination, or as both operands, or as the
source: the table of R140 (the spec's decision D6; log 8). -/
def Obligations.FlagRegisterAsOperand : Prop :=
  ∀ (s : State) (y : Reg) (f b : Nat), (s.reg 15).toNat = f → (s.reg y).toNat = b →
    (∃ t, exec (.addVxVy 15 y) s = .next t ∧ (t.reg 15).toNat = (f + b) % 256) ∧
    (∃ t, exec (.subVxVy 15 y) s = .next t ∧ (t.reg 15).toNat = if f ≥ b then f - b else 0) ∧
    (∃ t, exec (.shrVx 15 y) s = .next t ∧ (t.reg 15).toNat = f / 2) ∧
    (∃ t, exec (.subnVxVy 15 y) s = .next t ∧ (t.reg 15).toNat = if b ≥ f then b - f else 0) ∧
    (∃ t, exec (.shlVx 15 y) s = .next t ∧ (t.reg 15).toNat = f * 2 % 256) ∧
    (y ≠ 15 →
      (∃ t, exec (.addVxVy y 15) s = .next t ∧ (t.reg y).toNat = (b + f) % 256 ∧
        (t.reg 15).toNat = (b + f) / 256) ∧
      (∃ t, exec (.subVxVy y 15) s = .next t ∧ (t.reg y).toNat = (if b ≥ f then b - f else b) ∧
        (t.reg 15).toNat = if b > f then 1 else 0) ∧
      (∃ t, exec (.subnVxVy y 15) s = .next t ∧ (t.reg y).toNat = (if f ≥ b then f - b else b) ∧
        (t.reg 15).toNat = if f > b then 1 else 0))

/-! Index register, random, timer registers. -/

/-- R150: `I` takes the address, its bits 15 to 12 become 0. -/
def Obligations.LdIndexLoadsTheAddress : Prop :=
  ∀ (nnn : Addr) (s : State),
    decodeWord (BitVec.ofNat 16 (0xA000 + nnn.toNat)) = .ldIAddr nnn ∧
    ∃ t, exec (.ldIAddr nnn) s = .next t ∧ t.i.toNat = nnn.toNat ∧ t.pc = NextPc.target .next s.pc ∧
      writesOnly [.i, .pc] s t

/-- `RND Vx,byte` (R151): `V[x]` is the mask and one fresh byte, whatever byte that is; one draw is made, and no other
instruction draws. That the byte is a free input under no law is the spec's decision D14; that it is `Config.randomByte`
at `State.draws`, a count R151 does not have, is the MODEL'S CHOICE (log 12). No value of it can be proved, so this holds
for every byte. -/
def Obligations.RndMasksOneFreshByte : Prop :=
  (∀ (x : Reg) (kk : Byte) (s : State),
    decodeWord (BitVec.ofNat 16 (0xC000 + x.val * 256 + kk.toNat)) = .rndVxByte x kk ∧
    ∃ t, exec (.rndVxByte x kk) s = .next t ∧ t.reg x = kk &&& Config.randomByte s.draws ∧
      t.reg x &&& ~~~kk = 0 ∧ t.draws = s.draws + 1 ∧ t.pc = NextPc.target .next s.pc ∧
      writesOnly [.v x, .pc, .draws] s t) ∧
  (∀ (i : Instr) (s t : State), exec i s = .next t → (∀ x kk, i ≠ .rndVxByte x kk) → t.draws = s.draws)

/-- R152: `V[x] <- DT`; the value read is the last one written, since no other instruction than `LD DT,Vx` changes `DT`. -/
def Obligations.LdFromDelayReads : Prop :=
  (∀ (x : Reg) (s : State),
    decodeWord (BitVec.ofNat 16 (0xF007 + x.val * 256)) = .ldVxDt x ∧
    ∃ t, exec (.ldVxDt x) s = .next t ∧ t.reg x = s.dt ∧ t.pc = NextPc.target .next s.pc ∧
      writesOnly [.v x, .pc] s t) ∧
  (∀ (i : Instr) (s t : State), exec i s = .next t → (∀ y, i ≠ .ldDtVx y) → t.dt = s.dt)

/-- R153: `DT <- V[x]`, and nothing counts. -/
def Obligations.LdToDelayWrites : Prop :=
  ∀ (x : Reg) (s : State),
    decodeWord (BitVec.ofNat 16 (0xF015 + x.val * 256)) = .ldDtVx x ∧
    ∃ t, exec (.ldDtVx x) s = .next t ∧ t.dt = s.reg x ∧ t.pc = NextPc.target .next s.pc ∧
      writesOnly [.dt, .pc] s t

/-- R154: `ST <- V[x]`; no instruction reads `ST` back, so runs that differ in it alone differ in it alone after. -/
def Obligations.LdToSoundWrites : Prop :=
  (∀ (x : Reg) (s : State),
    decodeWord (BitVec.ofNat 16 (0xF018 + x.val * 256)) = .ldStVx x ∧
    ∃ t, exec (.ldStVx x) s = .next t ∧ t.st = s.reg x ∧ t.pc = NextPc.target .next s.pc ∧
      writesOnly [.st, .pc] s t) ∧
  (∀ (i : Instr) (s t u : State) (b : Byte), exec i s = .next t → exec i (s.setSt b) = .next u →
    writesOnly [.st] t u)

/-- `ADD I,Vx`: a 16-bit sum, not masked to 12 bits, `VF` not written. The wrap is the spec's decision D5 (log 7). -/
def Obligations.AddIndexWrapsAtSixteenBits : Prop :=
  ∀ (x : Reg) (s : State),
    decodeWord (BitVec.ofNat 16 (0xF01E + x.val * 256)) = .addIVx x ∧
    ∃ t, exec (.addIVx x) s = .next t ∧ t.i.toNat = (s.i.toNat + (s.reg x).toNat) % 65536 ∧
      t.pc = NextPc.target .next s.pc ∧ writesOnly [.i, .pc] s t

/-! The default no-operation. -/

/-- R160: a word that matches no row 1 to 25 of R66 is the default no-operation, and the only state change is `pc + 2`. -/
def Obligations.UnlistedWordOnlyAdvances : Prop :=
  ∀ (w : Word) (s : State),
    (∀ k row, k < 25 → maskMatch[k]? = some row → w &&& row.1 ≠ row.2) →
    decodeWord w = .nop w ∧
    ∃ t, exec (.nop w) s = .next t ∧ t.pc = NextPc.target .next s.pc ∧ writesOnly [.pc] s t

/-! Whole-machine rules. -/

/-- Every instruction writes only what its line of R34 says, or, where it faults, `fault` alone (R177). R34 is the spec's
own derivation, D12 its decision. -/
def Obligations.InstructionsWriteOnlyTheirWriteSet : Prop :=
  ∀ (i : Instr) (s t : State), exec i s = .next t →
    (handlerFault i s = none → writesOnly (writeSet i) s t) ∧
    (handlerFault i s ≠ none → writesOnly [.fault] s t)

/-- What an instruction writes depends only on what its line of R34 reads (and on `pc`, which the controller and a fault
read): two states alike there come out alike in every place written. -/
def Obligations.InstructionsReadOnlyTheirReadSet : Prop :=
  ∀ (i : Instr) (s₁ s₂ t₁ t₂ : State), sameOn (.pc :: .fault :: readSet i s₁) s₁ s₂ →
    exec i s₁ = .next t₁ → exec i s₂ = .next t₂ → sameOn (.fault :: writeSet i) t₁ t₂

/-- "Exactly five instructions write VF as a side effect, always with the value 0 or 1" (R21): the five put 0 or 1 there
unless they name it as destination, and any other instruction changes it only by naming it as destination. -/
def Obligations.OnlyFiveInstructionsWriteTheFlag : Prop :=
  ∀ (i : Instr) (s t : State), exec i s = .next t →
    (writesFlag i = true → Place.v 15 ∈ writeSet i ∧
      ((∀ x y, i = .addVxVy x y ∨ i = .subVxVy x y ∨ i = .shrVx x y ∨ i = .subnVxVy x y ∨ i = .shlVx x y → x ≠ 15) →
        t.reg 15 = 0 ∨ t.reg 15 = 1)) ∧
    (writesFlag i = false → t.reg 15 ≠ s.reg 15 →
      (∃ kk, i = .ldVxByte 15 kk ∨ i = .addVxByte 15 kk ∨ i = .rndVxByte 15 kk) ∨
      (∃ y, i = .ldVxVy 15 y ∨ i = .orVxVy 15 y ∨ i = .andVxVy 15 y ∨ i = .xorVxVy 15 y) ∨
      i = .ldVxDt 15)

/-- A handler faults exactly where R170 lists it (`RET` at `sp = 0`, `CALL` at `sp = 15`; nothing under `wrap`), and nothing
else is a fault (R175). The causes are the spec's decisions D7, D8, D12, D5 (logs 7, 9). -/
def Obligations.HandlersFaultOnlyWhereListed : Prop :=
  ∀ (i : Instr) (s : State),
    (∀ f, handlerFault i s = some f → exec i s = .next { s with fault := some f }) ∧
    (∀ t, handlerFault i s = none → exec i s = .next t → t.fault = s.fault)

/-- Fault entry is precise (R177, the spec's decision D12): a cycle that leaves a fault where there was none changes nothing
else, and the fault records the `pc` the state keeps. -/
def Obligations.FaultEntryIsPrecise : Prop :=
  ∀ (s t : State) (f : Fault), step s = .next t → s.fault = none → t.fault = some f →
    t = { s with fault := some f } ∧ f.pc = s.pc ∧ t.faultCode ∈ [1, 2, 3] ∧ t.faultPc = some s.pc

/-- The core never changes the stack's entries or a byte of memory, for any number of cycles from any state (R27, R44,
R53, which the spec derives). -/
def Obligations.StackEntriesAndMemoryNeverChange : Prop :=
  ∀ (k : Nat) (s t : State), runCycles k s = .next t →
    t.stack = s.stack ∧ ∀ a, Memory.read t.ram a = Memory.read s.ram a

/-- `DT` and `ST` are pure storage (R23, R183; D10): a cycle that changes one of them runs the instruction that writes it. -/
def Obligations.TimerRegistersArePureStorage : Prop :=
  ∀ s t : State, step s = .next t →
    (t.dt ≠ s.dt → ∃ b0 b1 x, s.fetch = some (b0, b1) ∧ decodeBytes b0 b1 = .ldDtVx x ∧ t.dt = s.reg x) ∧
    (t.st ≠ s.st → ∃ b0 b1 x, s.fetch = some (b0, b1) ∧ decodeBytes b0 b1 = .ldStVx x ∧ t.st = s.reg x)

/-- Every step keeps the invariant: `sp` stays in [0,15], memory stays canonical, and a recorded fault explains the
state (R25, R33, R174, R177, with the spec's decisions D5, D8, D12; logs 1, 7, 9). -/
def Obligations.StepKeepsTheInvariant : Prop :=
  ∀ s t : State, s.Inv → step s = .next t → t.Inv

/-- The invariant holds at reset. -/
def Obligations.ResetMeetsTheInvariant : Prop := State.reset.Inv

/-- The invariant holds after boot with any ROM that fits. -/
def Obligations.BootMeetsTheInvariant : Prop :=
  ∀ (rom : List Byte) (s : State), boot rom = .next s → s.Inv

/-! Reset and boot. -/

/-- What reset leaves in the registers: `sp = 0` is the source's; `pc = 0x0200` is the spec's decision D4 (log 6), the other
zeros its decision D3 (log 5), no fault its decision D12. -/
def Obligations.ResetRegisterValues : Prop :=
  State.reset.sp = 0 ∧ State.reset.pc = 0x0200 ∧ (∀ x, State.reset.reg x = 0) ∧ State.reset.i = 0 ∧
    State.reset.dt = 0 ∧ State.reset.st = 0 ∧ (∀ k, State.reset.stack.get k = 0) ∧ State.reset.fault = none ∧
    State.reset.faultCode = 0

/-- The reset input gives the same registers from every state, a faulted one too, and leaves `ram` to the host (R190,
R191; an input of any time is the spec's decision D15; log 15). -/
def Obligations.ResetInputRestoresTheRegisters : Prop :=
  ∀ s : State,
    (∀ p, (∀ a, p ≠ Place.ram a) → p ≠ Place.draws → p.same State.reset (assertReset s)) ∧
    (∀ a, Memory.read (assertReset s).ram a = Memory.read s.ram a)

/-- R194: `ram[5k + j] = FONT[5k + j]` at reset and after every boot, whatever the font's bytes are (a parameter, log 3). -/
def Obligations.FontStandsAtTheStartOfMemory : Prop :=
  ∀ k j : Nat, k < 16 → j < 5 →
    Memory.read State.reset.ram (5 * k + j) = some (Config.font (5 * k + j)) ∧
    ∀ (rom : List Byte) (s : State), boot rom = .next s →
      Memory.read s.ram (5 * k + j) = some (Config.font (5 * k + j))

/-- Memory outside the font and the ROM reads 0x00 after boot (the spec's decision D3; log 4), and an address at or above
`MEM_SIZE` is not backed, in every state. -/
def Obligations.UnloadedMemoryReadsZero : Prop :=
  (∀ (rom : List Byte) (s : State) (a : Nat), boot rom = .next s → 80 ≤ a → a < Config.memSize →
    (a < 0x200 ∨ 0x200 + rom.length ≤ a) → Memory.read s.ram a = some 0x00) ∧
  (∀ (s : State) (a : Nat), Config.memSize ≤ a → Memory.read s.ram a = none)

/-- R195: `ram[0x200 + j] = ROM[j]` for every byte of a ROM that fits, and "The first instruction of the program is
ROM[0] : ROM[1]"; no other byte and no register is touched. -/
def Obligations.BootCopiesTheRom : Prop :=
  ∀ rom : List Byte, rom.length ≤ Config.memSize - 0x200 →
    ∃ s, boot rom = .next s ∧
      (∀ (j : Nat) (h : j < rom.length), Memory.read s.ram (0x200 + j) = some rom[j]) ∧
      (∀ a, a < 0x200 ∨ 0x200 + rom.length ≤ a → Memory.read s.ram a = Memory.read State.reset.ram a) ∧
      (∀ b0 b1 rest, rom = b0 :: b1 :: rest → s.fetch = some (b0, b1)) ∧
      s = { State.reset with ram := s.ram }

/-- A launch with a ROM that does not fit is refused by name (R196, the spec's decision D22; log 16). -/
def Obligations.LongRomIsRefused : Prop :=
  ∀ rom : List Byte, Config.memSize - 0x200 < rom.length → boot rom = .refused (.romTooLong rom.length)

/-- A settled state, the spec's end of a run (R199, decision D17; log 20), steps to itself (R200, which the spec
derives). -/
def Obligations.SettledStateStepsToItself : Prop :=
  ∀ s : State, endsSuccessfully s = true → step s = .next s

/-- Under the policy `trap`, which the spec keeps defined but does not choose (R174, D5; log 7), the two additions fault
exactly when the true sum does not fit, precisely, and otherwise do as under `wrap`. -/
def Obligations.TrapPolicyFaultsOnOverflow : Prop :=
  ∀ (x : Reg) (kk : Byte) (s : State),
    ((s.reg x).toNat + kk.toNat > 255 →
      addImmediate .trap x kk s = .next { s with fault := some (.arithmeticOverflow s.pc) }) ∧
    ((s.reg x).toNat + kk.toNat ≤ 255 → addImmediate .trap x kk s = exec (.addVxByte x kk) s) ∧
    (s.i.toNat + (s.reg x).toNat > 65535 →
      addIndex .trap x s = .next { s with fault := some (.arithmeticOverflow s.pc) }) ∧
    (s.i.toNat + (s.reg x).toNat ≤ 65535 → addIndex .trap x s = exec (.addIVx x) s)
end

