-- ==== Sys2Proof/Laws/Decode.lean ====
section
/-! SUPPORT. Words, bytes and fields are three views of one thing (spec/30_encoding.md R61, R63; spec/40_cycle.md
R84); what the dispatcher answers for the fields of each row (R66). -/

namespace Sys2Proof

theorem Fields.ofWord_word (f : Fields) : Fields.ofWord f.word = f := by
  obtain ⟨a, b, c, d⟩ := f
  simp only [Fields.ofWord, Fields.word, Fields.mk.injEq]
  refine ⟨?_, ?_, ?_, ?_⟩ <;> ext i hi <;> simp <;> grind

theorem Fields.word_ofWord (w : Word) : (Fields.ofWord w).word = w := by
  ext i hi
  simp [Fields.ofWord, Fields.word]
  grind

theorem Fields.ofBytes_eq_ofWord (b0 b1 : Byte) : Fields.ofBytes b0 b1 = Fields.ofWord (b0 ++ b1) := by
  simp only [Fields.ofWord, Fields.ofBytes, Fields.mk.injEq]
  refine ⟨?_, ?_, ?_, ?_⟩ <;> ext i hi <;> simp <;> grind

/-- Decoding two bytes is decoding the word they form, the first byte the more significant (R41). -/
theorem decodeBytes_eq (b0 b1 : Byte) : decodeBytes b0 b1 = decodeWord (b0 ++ b1) := by
  rw [decodeBytes, decodeWord, Fields.ofBytes_eq_ofWord]

theorem append_bytes_of_word (w : Word) :
    w.extractLsb' 8 8 ++ w.extractLsb' 0 8 = w := by
  ext i hi
  simp
  grind

theorem bytes_of_append (b0 b1 : Byte) : wordBytes (b0 ++ b1) = [b0, b1] := by
  simp only [wordBytes, List.cons.injEq, and_true]
  constructor <;> ext i hi <;> simp <;> grind

/-- The bytes a word is stored as decode to the word's instruction. -/
theorem decode_wordBytes (w : Word) (rest : List Byte) :
    decode (wordBytes w ++ rest) = .ok (decodeWord w, rest) := by
  simp only [wordBytes, List.cons_append, List.nil_append, decode, decodeBytes_eq, append_bytes_of_word]

theorem decodeTableWord_eq (w : Nat) : decodeTableWord 16 w = some (decodeWord (BitVec.ofNat 16 w)) := by
  have h := decode_wordBytes (BitVec.ofNat 16 (w % 2 ^ 16)) []
  rw [List.append_nil] at h
  have hw : BitVec.ofNat 16 (w % 2 ^ 16) = BitVec.ofNat 16 w := by
    apply BitVec.eq_of_toNat_eq
    simp
  rw [decodeTableWord, h, hw]

theorem decodeWord_word (f : Fields) : decodeWord f.word = dispatch f := by
  rw [decodeWord, Fields.ofWord_word]

/-- The value of a word, field by field (R61). -/
theorem Fields.word_toNat (f : Fields) :
    f.word.toNat = f.op.toNat * 4096 + f.x.toNat * 256 + f.y.toNat * 16 + f.n.toNat := by
  obtain ⟨a, b, c, d⟩ := f
  simp only [Fields.word, BitVec.toNat_append]
  have := a.isLt; have := b.isLt; have := c.isLt; have := d.isLt
  rw [← Nat.shiftLeft_add_eq_or_of_lt (by omega), ← Nat.shiftLeft_add_eq_or_of_lt (by omega),
    ← Nat.shiftLeft_add_eq_or_of_lt (by omega)]
  simp only [Nat.shiftLeft_eq]
  omega

theorem Fields.kk_toNat (f : Fields) : f.kk.toNat = f.y.toNat * 16 + f.n.toNat := by
  obtain ⟨a, b, c, d⟩ := f
  have := d.isLt
  rw [Fields.kk, BitVec.toNat_append, ← Nat.shiftLeft_add_eq_or_of_lt (by omega), Nat.shiftLeft_eq]

theorem Fields.nnn_toNat (f : Fields) : f.nnn.toNat = f.x.toNat * 256 + f.y.toNat * 16 + f.n.toNat := by
  obtain ⟨a, b, c, d⟩ := f
  have := c.isLt; have := d.isLt
  rw [Fields.nnn, BitVec.toNat_append, BitVec.toNat_append, ← Nat.shiftLeft_add_eq_or_of_lt (by omega),
    ← Nat.shiftLeft_add_eq_or_of_lt (by omega)]
  simp only [Nat.shiftLeft_eq]
  omega

/-- A word given by a number whose hexadecimal digits are the fields. -/
theorem ofNat_eq_word (f : Fields) (w : Nat)
    (h : w = f.op.toNat * 4096 + f.x.toNat * 256 + f.y.toNat * 16 + f.n.toNat) :
    BitVec.ofNat 16 w = f.word := by
  apply BitVec.eq_of_toNat_eq
  rw [← Fields.word_toNat] at h
  rw [h, BitVec.toNat_ofNat, Nat.mod_eq_of_lt f.word.isLt]

@[simp] theorem regOfNibble_nibbleOfReg (r : Reg) : regOfNibble (nibbleOfReg r) = r := rfl

@[simp] theorem nibbleOfReg_regOfNibble (v : Nibble) : nibbleOfReg (regOfNibble v) = v := rfl

@[simp] theorem nibbleOfReg_toNat (r : Reg) : (nibbleOfReg r).toNat = r.val := rfl

/-- The fields of an address immediate put together again. -/
theorem fieldsA_nnn (op : Nibble) (nnn : Addr) : (fieldsA op nnn).nnn = nnn := by
  ext i hi
  simp [fieldsA, Fields.nnn]
  grind

theorem fieldsI_kk (op : Nibble) (x : Reg) (kk : Byte) : (fieldsI op x kk).kk = kk := by
  ext i hi
  simp [fieldsI, Fields.kk]
  grind

/-- An address immediate whose fields are those of `f`. -/
theorem fieldsA_of_nnn (f : Fields) : fieldsA f.op f.nnn = f := by
  obtain ⟨a, b, c, d⟩ := f
  simp only [fieldsA, Fields.nnn, Fields.mk.injEq, true_and]
  refine ⟨?_, ?_, ?_⟩ <;> ext i hi <;> simp <;> grind

theorem fieldsI_of_kk (f : Fields) : fieldsI f.op (regOfNibble f.x) f.kk = f := by
  obtain ⟨a, b, c, d⟩ := f
  simp only [fieldsI, Fields.kk, nibbleOfReg_regOfNibble, Fields.mk.injEq, true_and]
  refine ⟨?_, ?_⟩ <;> ext i hi <;> simp <;> grind

theorem fieldsR_of_xy (f : Fields) : fieldsR f.op (regOfNibble f.x) (regOfNibble f.y) f.n = f := by
  simp [fieldsR]

theorem fieldsF_of_x (f : Fields) (h : f.op = 0xF) : fieldsF (regOfNibble f.x) f.y f.n = f := by
  simp [fieldsF, ← h]

/-- The value of each format's word (R72). -/
theorem fieldsA_word (op : Nibble) (nnn : Addr) :
    (fieldsA op nnn).word.toNat = op.toNat * 4096 + nnn.toNat := by
  have h := Fields.nnn_toNat (fieldsA op nnn)
  rw [fieldsA_nnn] at h
  rw [Fields.word_toNat, h]
  show op.toNat * 4096 + _ + _ + _ = _
  omega

theorem fieldsI_word (op : Nibble) (x : Reg) (kk : Byte) :
    (fieldsI op x kk).word.toNat = op.toNat * 4096 + x.val * 256 + kk.toNat := by
  have h := Fields.kk_toNat (fieldsI op x kk)
  rw [fieldsI_kk] at h
  rw [Fields.word_toNat, h]
  show op.toNat * 4096 + x.val * 256 + _ + _ = _
  omega

theorem fieldsR_word (op : Nibble) (x y : Reg) (n : Nibble) :
    (fieldsR op x y n).word.toNat = op.toNat * 4096 + x.val * 256 + y.val * 16 + n.toNat :=
  Fields.word_toNat _

theorem fieldsF_word (x : Reg) (y n : Nibble) :
    (fieldsF x y n).word.toNat = 0xF * 4096 + x.val * 256 + y.toNat * 16 + n.toNat :=
  Fields.word_toNat (fieldsF x y n)

/-- A pattern accepts the fields of a word exactly when `w & mask = match` (R64). -/
theorem Pattern.accepts_iff (p : Pattern) (f : Fields) :
    p.accepts f = true ↔ f.word &&& p.mask = p.value := by
  have part : ∀ (d : Option Nibble) (v : Nibble),
      nibbleAccepted d v = true ↔ v &&& (if d.isSome then 0xF else 0x0) = d.getD 0 := by
    intro d v
    cases d with
    | none => simp [nibbleAccepted]
    | some c => simp [nibbleAccepted, show ∀ v : Nibble, v &&& 15#4 = v by decide]
  have both : ∀ {m n : Nat} (a c e : BitVec m) (b d f : BitVec n),
      (a ++ b) &&& (c ++ d) = e ++ f ↔ a &&& c = e ∧ b &&& d = f := by
    intro m n a c e b d f
    have and_append : (a ++ b) &&& (c ++ d) = (a &&& c) ++ (b &&& d) := by
      ext i hi
      simp [BitVec.getElem_append]
    rw [and_append]
    constructor
    · intro h
      constructor
      · simpa [BitVec.extractLsb'_append_eq_left] using congrArg (BitVec.extractLsb' n m) h
      · simpa [BitVec.extractLsb'_append_eq_right] using congrArg (BitVec.extractLsb' 0 n) h
    · rintro ⟨rfl, rfl⟩; rfl
  obtain ⟨a, b, c, d⟩ := f
  simp only [Pattern.accepts, Pattern.mask, Pattern.value, Fields.word, Bool.and_eq_true, part]
  rw [both, both, both]

/-- The sixteen values of a field. -/
theorem nibble_cases (v : Nibble) :
    v = 0x0 ∨ v = 0x1 ∨ v = 0x2 ∨ v = 0x3 ∨ v = 0x4 ∨ v = 0x5 ∨ v = 0x6 ∨ v = 0x7 ∨
    v = 0x8 ∨ v = 0x9 ∨ v = 0xA ∨ v = 0xB ∨ v = 0xC ∨ v = 0xD ∨ v = 0xE ∨ v = 0xF := by
  revert v; decide

/-- The table of R68 on fields instead of numbers. -/
def isDefaultFields (f : Fields) : Bool :=
  (f.op == 0x0 && !(f.x == 0x0 && f.y == 0xE && f.n == 0xE)) ||
  (f.op == 0x5 && f.n != 0x0) ||
  (f.op == 0x8 && [0x8, 0x9, 0xA, 0xB, 0xC, 0xD, 0xF].contains f.n) ||
  (f.op == 0x9 && f.n != 0x0) ||
  f.op == 0xD ||
  f.op == 0xE ||
  (f.op == 0xF && !((f.y == 0x0 && f.n == 0x7) || (f.y == 0x1 && f.n == 0x5) ||
    (f.y == 0x1 && f.n == 0x8) || (f.y == 0x1 && f.n == 0xE)))

theorem isDefaultWord_word (f : Fields) : isDefaultWord f.word = isDefaultFields f := by
  have hw := Fields.word_toNat f
  obtain ⟨a, b, c, d⟩ := f
  have := a.isLt; have := b.isLt; have := c.isLt; have := d.isLt
  simp only at hw
  have hop : (Fields.word ⟨a, b, c, d⟩).toNat / 4096 = a.toNat := by omega
  have hn : (Fields.word ⟨a, b, c, d⟩).toNat % 16 = d.toNat := by omega
  have hkk : (Fields.word ⟨a, b, c, d⟩).toNat % 256 = c.toNat * 16 + d.toNat := by omega
  have low : ∀ c d : Nibble, (! [0x07, 0x15, 0x18, 0x1E].contains (c.toNat * 16 + d.toNat)) =
      !((c == 0x0 && d == 0x7) || (c == 0x1 && d == 0x5) || (c == 0x1 && d == 0x8) || (c == 0x1 && d == 0xE)) := by
    decide
  have alu : ∀ d : Nibble, [0x8, 0x9, 0xA, 0xB, 0xC, 0xD, 0xF].contains d.toNat =
      [0x8, 0x9, 0xA, 0xB, 0xC, 0xD, 0xF].contains d := by decide
  have digit : ∀ a : Nibble, (a.toNat == 0) = (a == 0) ∧ (a.toNat == 5) = (a == 5) ∧
      (a.toNat == 8) = (a == 8) ∧ (a.toNat == 9) = (a == 9) ∧ (a.toNat == 13) = (a == 13) ∧
      (a.toNat == 14) = (a == 14) ∧ (a.toNat == 15) = (a == 15) ∧ (a.toNat != 0) = (a != 0) := by decide
  have zero : (a == 0 && (Fields.word ⟨a, b, c, d⟩).toNat != 0xEE) =
      (a == 0 && !(b == 0 && c == 14 && d == 14)) := by
    rw [Bool.eq_iff_iff]
    simp [← BitVec.toNat_inj]
    omega
  unfold isDefaultWord isDefaultFields
  simp only [hop, hn, hkk, low, alu, digit]
  rw [zero]

end Sys2Proof
end

