-- ==== Sys2Proof/Laws/Memory.lean ====
section
/-! SUPPORT. Memory: what a read sees after a write, that every memory operation keeps the canonical form, and
that canonical memories that read alike are the same list (spec/20_memory.md R40, R45). -/

namespace Sys2Proof.Machine

@[simp] theorem Memory.byteAt_nil (a : Nat) : Memory.byteAt [] a = Memory.unlisted a := rfl

theorem Memory.byteAt_cons_entry (k : Nat) (b : Byte) (rest : Memory) (a : Nat) :
    Memory.byteAt ((k, b) :: rest) a = if k = a then b else Memory.byteAt rest a := rfl

/-- Below every listed address, memory reads as unlisted. -/
theorem Memory.byteAt_below {m : Memory} {a : Nat} (h : ∀ c ∈ m, a < c.1) :
    Memory.byteAt m a = Memory.unlisted a := by
  induction m with
  | nil => rfl
  | cons c rest ih =>
    obtain ⟨k, b⟩ := c
    have hk : a < k := h (k, b) (by simp)
    rw [Memory.byteAt_cons_entry, if_neg (by omega)]
    exact ih fun c hc => h c (List.mem_cons_of_mem _ hc)

/-- Every address of a canonical list stands above any address its head stands above. -/
theorem Memory.head_below {m : Memory} {a : Nat} (hm : Memory.wf m = true)
    (hh : Memory.headAbove a m = true) : ∀ c ∈ m, a < c.1 := by
  induction m generalizing a with
  | nil => simp
  | cons c rest ih =>
    obtain ⟨k, b⟩ := c
    simp only [Memory.headAbove, decide_eq_true_eq] at hh
    simp only [Memory.wf, Memory.wfHead, Bool.and_eq_true] at hm
    intro c hc
    rcases List.mem_cons.1 hc with rfl | hc
    · exact hh
    · exact Nat.lt_trans hh (ih hm.2 hm.1.2 c hc)

/-- In a canonical list, every entry after the head stands above it. -/
theorem Memory.tail_above {k : Nat} {b : Byte} {rest : Memory} (hm : Memory.wf ((k, b) :: rest) = true) :
    ∀ c ∈ rest, k < c.1 := by
  simp only [Memory.wf, Memory.wfHead, Bool.and_eq_true] at hm
  exact Memory.head_below hm.2 hm.1.2

theorem Memory.wf_tail {c : Host.Cell} {rest : Memory} (hm : Memory.wf (c :: rest) = true) :
    Memory.wf rest = true := by
  obtain ⟨k, b⟩ := c
  simp only [Memory.wf, Bool.and_eq_true] at hm
  exact hm.2

/-- A list is canonical exactly when its head fits and its tail is canonical. -/
theorem Memory.wf_cons_iff {k : Nat} {b : Byte} {rest : Memory} :
    Memory.wf ((k, b) :: rest) = true ↔
      backed k = true ∧ b ≠ Memory.unlisted k ∧ (∀ c ∈ rest, k < c.1) ∧ Memory.wf rest = true := by
  constructor
  · intro h
    have h' := h
    simp only [Memory.wf, Memory.wfHead, Bool.and_eq_true, bne_iff_ne] at h'
    exact ⟨h'.1.1.1, h'.1.1.2, Memory.tail_above h, h'.2⟩
  · rintro ⟨hk, hb, hr, hw⟩
    cases rest with
    | nil => simp [Memory.wf, Memory.wfHead, Memory.headAbove, hk, hb]
    | cons c rest =>
      obtain ⟨k', b'⟩ := c
      have := hr (k', b') (by simp)
      simp [Memory.wf, Memory.wfHead, Memory.headAbove, hk, hb] at this hw ⊢
      exact ⟨this, hw⟩

theorem Memory.byteAt_cons (a : Nat) (b : Byte) (m : Memory) (h : ∀ c ∈ m, a < c.1) (a' : Nat) :
    Memory.byteAt (Memory.cons a b m) a' = if a' = a then b else Memory.byteAt m a' := by
  unfold Memory.cons
  split
  · rename_i hb
    split
    · rename_i ha
      rw [ha, Memory.byteAt_below h, hb]
    · rfl
  · rw [Memory.byteAt_cons_entry]
    by_cases ha : a' = a
    · simp [ha]
    · simp [ha, Ne.symm ha]

theorem Memory.wf_cons_op {a : Nat} {b : Byte} {m : Memory} (ha : backed a = true)
    (h : ∀ c ∈ m, a < c.1) (hm : Memory.wf m = true) : Memory.wf (Memory.cons a b m) = true := by
  unfold Memory.cons
  split
  · exact hm
  · exact Memory.wf_cons_iff.2 ⟨ha, by assumption, h, hm⟩

theorem Memory.mem_cons_op {a : Nat} {b : Byte} {m : Memory} {c : Host.Cell}
    (h : c ∈ Memory.cons a b m) : c = (a, b) ∨ c ∈ m := by
  unfold Memory.cons at h
  split at h
  · exact .inr h
  · simpa using h

theorem Memory.mem_insert {m : Memory} {a : Nat} {b : Byte} {c : Host.Cell}
    (h : c ∈ Memory.insert m a b) : c = (a, b) ∨ c ∈ m := by
  induction m with
  | nil => exact Memory.mem_cons_op h
  | cons d rest ih =>
    obtain ⟨k, e⟩ := d
    simp only [Memory.insert] at h
    split at h
    · exact Memory.mem_cons_op h
    · split at h
      · exact (Memory.mem_cons_op h).imp id (List.mem_cons_of_mem _)
      · rcases List.mem_cons.1 h with rfl | h
        · exact .inr (by simp)
        · exact (ih h).imp id (List.mem_cons_of_mem _)

/-- An insertion at a backed address keeps the canonical form. -/
theorem Memory.insert_wf {m : Memory} {a : Nat} (b : Byte) (ha : backed a = true)
    (hm : Memory.wf m = true) : Memory.wf (Memory.insert m a b) = true := by
  induction m with
  | nil => exact Memory.wf_cons_op ha (by simp) rfl
  | cons d rest ih =>
    obtain ⟨k, e⟩ := d
    obtain ⟨hk, he, hr, hw⟩ := Memory.wf_cons_iff.1 hm
    simp only [Memory.insert]
    split
    · rename_i hlt
      refine Memory.wf_cons_op ha (fun c hc => ?_) hm
      rcases List.mem_cons.1 hc with rfl | hc
      · exact hlt
      · exact Nat.lt_trans hlt (hr c hc)
    · split
      · rename_i hak
        exact Memory.wf_cons_op ha (hak ▸ hr) hw
      · refine Memory.wf_cons_iff.2 ⟨hk, he, fun c hc => ?_, ih hw⟩
        rcases Memory.mem_insert hc with rfl | hc
        · simp only; omega
        · exact hr c hc

/-- After an insertion into a canonical memory the address written reads as the byte written, and every other
address as before. -/
theorem Memory.byteAt_insert {m : Memory} (hm : Memory.wf m = true) (a : Nat) (b : Byte) (a' : Nat) :
    Memory.byteAt (Memory.insert m a b) a' = if a' = a then b else Memory.byteAt m a' := by
  induction m with
  | nil => exact Memory.byteAt_cons a b [] (by simp) a'
  | cons d rest ih =>
    obtain ⟨k, e⟩ := d
    obtain ⟨-, -, hr, hw⟩ := Memory.wf_cons_iff.1 hm
    simp only [Memory.insert]
    split
    · rename_i hlt
      refine Memory.byteAt_cons _ _ _ (fun c hc => ?_) a'
      rcases List.mem_cons.1 hc with rfl | hc
      · exact hlt
      · exact Nat.lt_trans hlt (hr c hc)
    · split
      · rename_i hak
        rw [Memory.byteAt_cons _ _ _ (hak ▸ hr), Memory.byteAt_cons_entry, hak]
        by_cases h : a' = k
        · simp [h]
        · simp [h, Ne.symm h]
      · rename_i hlt hak
        rw [Memory.byteAt_cons_entry, Memory.byteAt_cons_entry, ih hw]
        by_cases h : k = a'
        · simp [h, show ¬ a' = a by omega]
        · simp [h]

/-- Every write keeps the canonical form. -/
theorem Memory.write_wf {m : Memory} (a : Nat) (b : Byte) (hm : Memory.wf m = true) :
    Memory.wf (Memory.write m a b) = true := by
  unfold Memory.write
  split
  · exact Memory.insert_wf b (by assumption) hm
  · exact hm

theorem Memory.byteAt_write {m : Memory} (hm : Memory.wf m = true) {a : Nat} (ha : backed a = true) (b : Byte)
    (a' : Nat) : Memory.byteAt (Memory.write m a b) a' = if a' = a then b else Memory.byteAt m a' := by
  rw [Memory.write, if_pos ha, Memory.byteAt_insert hm]

/-- A read after a write to the same backed address gives the byte written. -/
theorem Memory.read_write_same {m : Memory} (hm : Memory.wf m = true) {a : Nat} (ha : backed a = true)
    (b : Byte) : Memory.read (Memory.write m a b) a = some b := by
  simp [Memory.read, ha, Memory.byteAt_write hm ha]

/-- A write leaves every other address alone. -/
theorem Memory.read_write_other {m : Memory} (hm : Memory.wf m = true) {a a' : Nat} (h : a' ≠ a)
    (b : Byte) : Memory.read (Memory.write m a b) a' = Memory.read m a' := by
  by_cases ha : backed a = true
  · simp [Memory.read, Memory.byteAt_write hm ha, h]
  · simp [Memory.write, ha]

/-- A load keeps the canonical form. -/
theorem Memory.load_wf {m : Memory} (a : Nat) (bytes : List Byte) (hm : Memory.wf m = true) :
    Memory.wf (Memory.load m a bytes) = true := by
  induction bytes generalizing m a with
  | nil => exact hm
  | cons b rest ih => exact ih (a + 1) (Memory.write_wf a b hm)

/-- The memory after reset lists nothing, which is canonical. -/
theorem State.reset_ram_wf : Memory.wf State.reset.ram = true := rfl

/-- Canonical memories that read alike at every backed address are the same list. -/
theorem Memory.ext_of_wf {m n : Memory} (hm : Memory.wf m = true) (hn : Memory.wf n = true)
    (h : ∀ a, Memory.byteAt m a = Memory.byteAt n a) : m = n := by
  induction m generalizing n with
  | nil =>
    cases n with
    | nil => rfl
    | cons d rest =>
      obtain ⟨k, e⟩ := d
      obtain ⟨-, he, -, -⟩ := Memory.wf_cons_iff.1 hn
      have hk := h k
      rw [Memory.byteAt_cons_entry, if_pos rfl, Memory.byteAt_nil] at hk
      exact absurd hk.symm he
  | cons d rest ih =>
    obtain ⟨k, e⟩ := d
    obtain ⟨-, he, hr, hw⟩ := Memory.wf_cons_iff.1 hm
    have hk := h k
    rw [Memory.byteAt_cons_entry, if_pos rfl] at hk
    cases n with
    | nil => exact absurd hk he
    | cons d' rest' =>
      obtain ⟨k', e'⟩ := d'
      obtain ⟨-, he', hr', hw'⟩ := Memory.wf_cons_iff.1 hn
      have hk' := h k'
      rw [Memory.byteAt_cons_entry, Memory.byteAt_cons_entry, if_pos rfl] at hk'
      have hkk : k = k' := by
        rcases Nat.lt_trichotomy k k' with hlt | heq | hgt
        · rw [Memory.byteAt_below (m := (k', e') :: rest') (fun c hc => by
            rcases List.mem_cons.1 hc with rfl | hc
            · exact hlt
            · exact Nat.lt_trans hlt (hr' c hc))] at hk
          exact absurd hk he
        · exact heq
        · rw [if_neg (by omega), Memory.byteAt_below (fun c hc => Nat.lt_trans hgt (hr c hc))] at hk'
          exact absurd hk'.symm he'
      subst hkk
      rw [Memory.byteAt_cons_entry, if_pos rfl] at hk
      subst hk
      congr 1
      refine ih hw hw' fun a => ?_
      have ha := h a
      rw [Memory.byteAt_cons_entry, Memory.byteAt_cons_entry] at ha
      by_cases hka : k = a
      · subst hka
        rw [Memory.byteAt_below hr, Memory.byteAt_below hr']
      · simpa [hka] using ha

end Sys2Proof.Machine
end

