-- ==== Sys2Proof/Laws/State.lean ====
section
/-! SUPPORT. One lemma per field per update of State, true by rfl, so that no later proof unfolds a record
update; then what a register read sees after each update. -/

namespace Sys2Proof.Machine

variable (s : State)

@[simp] theorem State.setReg_i (x : Reg) (b : Byte) : (s.setReg x b).i = s.i := rfl
@[simp] theorem State.setReg_dt (x : Reg) (b : Byte) : (s.setReg x b).dt = s.dt := rfl
@[simp] theorem State.setReg_st (x : Reg) (b : Byte) : (s.setReg x b).st = s.st := rfl
@[simp] theorem State.setReg_pc (x : Reg) (b : Byte) : (s.setReg x b).pc = s.pc := rfl
@[simp] theorem State.setReg_sp (x : Reg) (b : Byte) : (s.setReg x b).sp = s.sp := rfl
@[simp] theorem State.setReg_stack (x : Reg) (b : Byte) : (s.setReg x b).stack = s.stack := rfl
@[simp] theorem State.setReg_fault (x : Reg) (b : Byte) : (s.setReg x b).fault = s.fault := rfl
@[simp] theorem State.setReg_ram (x : Reg) (b : Byte) : (s.setReg x b).ram = s.ram := rfl
@[simp] theorem State.setReg_draws (x : Reg) (b : Byte) : (s.setReg x b).draws = s.draws := rfl

@[simp] theorem State.setI_v (a : Word) : (s.setI a).v = s.v := rfl
@[simp] theorem State.setI_i (a : Word) : (s.setI a).i = a := rfl
@[simp] theorem State.setI_dt (a : Word) : (s.setI a).dt = s.dt := rfl
@[simp] theorem State.setI_st (a : Word) : (s.setI a).st = s.st := rfl
@[simp] theorem State.setI_pc (a : Word) : (s.setI a).pc = s.pc := rfl
@[simp] theorem State.setI_sp (a : Word) : (s.setI a).sp = s.sp := rfl
@[simp] theorem State.setI_stack (a : Word) : (s.setI a).stack = s.stack := rfl
@[simp] theorem State.setI_fault (a : Word) : (s.setI a).fault = s.fault := rfl
@[simp] theorem State.setI_ram (a : Word) : (s.setI a).ram = s.ram := rfl
@[simp] theorem State.setI_draws (a : Word) : (s.setI a).draws = s.draws := rfl

@[simp] theorem State.setDt_v (b : Byte) : (s.setDt b).v = s.v := rfl
@[simp] theorem State.setDt_i (b : Byte) : (s.setDt b).i = s.i := rfl
@[simp] theorem State.setDt_dt (b : Byte) : (s.setDt b).dt = b := rfl
@[simp] theorem State.setDt_st (b : Byte) : (s.setDt b).st = s.st := rfl
@[simp] theorem State.setDt_pc (b : Byte) : (s.setDt b).pc = s.pc := rfl
@[simp] theorem State.setDt_sp (b : Byte) : (s.setDt b).sp = s.sp := rfl
@[simp] theorem State.setDt_stack (b : Byte) : (s.setDt b).stack = s.stack := rfl
@[simp] theorem State.setDt_fault (b : Byte) : (s.setDt b).fault = s.fault := rfl
@[simp] theorem State.setDt_ram (b : Byte) : (s.setDt b).ram = s.ram := rfl
@[simp] theorem State.setDt_draws (b : Byte) : (s.setDt b).draws = s.draws := rfl

@[simp] theorem State.setSt_v (b : Byte) : (s.setSt b).v = s.v := rfl
@[simp] theorem State.setSt_i (b : Byte) : (s.setSt b).i = s.i := rfl
@[simp] theorem State.setSt_dt (b : Byte) : (s.setSt b).dt = s.dt := rfl
@[simp] theorem State.setSt_st (b : Byte) : (s.setSt b).st = b := rfl
@[simp] theorem State.setSt_pc (b : Byte) : (s.setSt b).pc = s.pc := rfl
@[simp] theorem State.setSt_sp (b : Byte) : (s.setSt b).sp = s.sp := rfl
@[simp] theorem State.setSt_stack (b : Byte) : (s.setSt b).stack = s.stack := rfl
@[simp] theorem State.setSt_fault (b : Byte) : (s.setSt b).fault = s.fault := rfl
@[simp] theorem State.setSt_ram (b : Byte) : (s.setSt b).ram = s.ram := rfl
@[simp] theorem State.setSt_draws (b : Byte) : (s.setSt b).draws = s.draws := rfl

@[simp] theorem State.setSp_v (b : Byte) : (s.setSp b).v = s.v := rfl
@[simp] theorem State.setSp_i (b : Byte) : (s.setSp b).i = s.i := rfl
@[simp] theorem State.setSp_dt (b : Byte) : (s.setSp b).dt = s.dt := rfl
@[simp] theorem State.setSp_st (b : Byte) : (s.setSp b).st = s.st := rfl
@[simp] theorem State.setSp_pc (b : Byte) : (s.setSp b).pc = s.pc := rfl
@[simp] theorem State.setSp_sp (b : Byte) : (s.setSp b).sp = b := rfl
@[simp] theorem State.setSp_stack (b : Byte) : (s.setSp b).stack = s.stack := rfl
@[simp] theorem State.setSp_fault (b : Byte) : (s.setSp b).fault = s.fault := rfl
@[simp] theorem State.setSp_ram (b : Byte) : (s.setSp b).ram = s.ram := rfl
@[simp] theorem State.setSp_draws (b : Byte) : (s.setSp b).draws = s.draws := rfl

@[simp] theorem State.setPc_v (a : Word) : (s.setPc a).v = s.v := rfl
@[simp] theorem State.setPc_i (a : Word) : (s.setPc a).i = s.i := rfl
@[simp] theorem State.setPc_dt (a : Word) : (s.setPc a).dt = s.dt := rfl
@[simp] theorem State.setPc_st (a : Word) : (s.setPc a).st = s.st := rfl
@[simp] theorem State.setPc_pc (a : Word) : (s.setPc a).pc = a := rfl
@[simp] theorem State.setPc_sp (a : Word) : (s.setPc a).sp = s.sp := rfl
@[simp] theorem State.setPc_stack (a : Word) : (s.setPc a).stack = s.stack := rfl
@[simp] theorem State.setPc_fault (a : Word) : (s.setPc a).fault = s.fault := rfl
@[simp] theorem State.setPc_ram (a : Word) : (s.setPc a).ram = s.ram := rfl
@[simp] theorem State.setPc_draws (a : Word) : (s.setPc a).draws = s.draws := rfl

@[simp] theorem State.afterDraw_v : (s.afterDraw).v = s.v := rfl
@[simp] theorem State.afterDraw_i : (s.afterDraw).i = s.i := rfl
@[simp] theorem State.afterDraw_dt : (s.afterDraw).dt = s.dt := rfl
@[simp] theorem State.afterDraw_st : (s.afterDraw).st = s.st := rfl
@[simp] theorem State.afterDraw_pc : (s.afterDraw).pc = s.pc := rfl
@[simp] theorem State.afterDraw_sp : (s.afterDraw).sp = s.sp := rfl
@[simp] theorem State.afterDraw_stack : (s.afterDraw).stack = s.stack := rfl
@[simp] theorem State.afterDraw_fault : (s.afterDraw).fault = s.fault := rfl
@[simp] theorem State.afterDraw_ram : (s.afterDraw).ram = s.ram := rfl
@[simp] theorem State.afterDraw_draws : (s.afterDraw).draws = s.draws + 1 := rfl

/-! `reg` after each update. -/

@[simp] theorem State.reg_setReg (x : Reg) (b : Byte) (y : Reg) :
    (s.setReg x b).reg y = if x = y then b else s.reg y := by
  simp [State.reg, State.setReg, Vector.get_eq_getElem, Vector.getElem_set, Fin.ext_iff]

@[simp] theorem State.reg_setI (a : Word) (y : Reg) : (s.setI a).reg y = s.reg y := rfl
@[simp] theorem State.reg_setDt (b : Byte) (y : Reg) : (s.setDt b).reg y = s.reg y := rfl
@[simp] theorem State.reg_setSt (b : Byte) (y : Reg) : (s.setSt b).reg y = s.reg y := rfl
@[simp] theorem State.reg_setSp (b : Byte) (y : Reg) : (s.setSp b).reg y = s.reg y := rfl
@[simp] theorem State.reg_setPc (a : Word) (y : Reg) : (s.setPc a).reg y = s.reg y := rfl
@[simp] theorem State.reg_afterDraw (y : Reg) : (s.afterDraw).reg y = s.reg y := rfl

/-! `stackEntry` and `drawByte` after each update. -/

@[simp] theorem State.stackEntry_setReg (x : Reg) (b : Byte) (k : Byte) : (s.setReg x b).stackEntry k = s.stackEntry k := rfl
@[simp] theorem State.stackEntry_setI (a : Word) (k : Byte) : (s.setI a).stackEntry k = s.stackEntry k := rfl
@[simp] theorem State.stackEntry_setDt (b : Byte) (k : Byte) : (s.setDt b).stackEntry k = s.stackEntry k := rfl
@[simp] theorem State.stackEntry_setSt (b : Byte) (k : Byte) : (s.setSt b).stackEntry k = s.stackEntry k := rfl
@[simp] theorem State.stackEntry_setSp (b : Byte) (k : Byte) : (s.setSp b).stackEntry k = s.stackEntry k := rfl
@[simp] theorem State.stackEntry_setPc (a : Word) (k : Byte) : (s.setPc a).stackEntry k = s.stackEntry k := rfl
@[simp] theorem State.stackEntry_afterDraw (k : Byte) : (s.afterDraw).stackEntry k = s.stackEntry k := rfl
@[simp] theorem State.drawByte_setReg (x : Reg) (b : Byte) : (s.setReg x b).drawByte = s.drawByte := rfl
@[simp] theorem State.drawByte_setI (a : Word) : (s.setI a).drawByte = s.drawByte := rfl
@[simp] theorem State.drawByte_setDt (b : Byte) : (s.setDt b).drawByte = s.drawByte := rfl
@[simp] theorem State.drawByte_setSt (b : Byte) : (s.setSt b).drawByte = s.drawByte := rfl
@[simp] theorem State.drawByte_setSp (b : Byte) : (s.setSp b).drawByte = s.drawByte := rfl
@[simp] theorem State.drawByte_setPc (a : Word) : (s.setPc a).drawByte = s.drawByte := rfl

/-- Reading an entry of the stack that exists. -/
theorem State.stackEntry_of_lt (k : Byte) (h : k.toNat < 16) : s.stackEntry k = s.stack.get ⟨k.toNat, h⟩ := by
  simp [State.stackEntry, h]

/-- After a flag write, `VF` holds the flag and nothing else has changed. -/
theorem State.reg_writeFlag (flag : Option Bool) (y : Reg) :
    (s.writeFlag flag).reg y = match flag with
      | none => s.reg y
      | some b => if flagReg = y then flagByte b else s.reg y := by
  cases flag <;> simp [State.writeFlag]

/-- What a register holds after an ALU write-back: the result if it names the destination and there is one, else
the flag if it names `VF` and there is one, else what it held (spec/10_state.md R26). -/
theorem State.reg_writeBack (x : Reg) (out : AluOut) (y : Reg) :
    (s.writeBack x out).reg y = match out.result with
      | some r => if x = y then r else (s.writeFlag out.flag).reg y
      | none => (s.writeFlag out.flag).reg y := by
  rcases out with ⟨flag, result⟩
  cases result <;> simp [State.writeBack, State.writeResult]

@[simp] theorem aluPlain_flag (r : Byte) : (aluPlain r).flag = none := rfl

@[simp] theorem aluPlain_result (r : Byte) : (aluPlain r).result = some r := rfl

/-- An ALU write-back leaves every register alone but the destination and, for an operation with a flag, `VF`. -/
theorem State.reg_writeBack_other {x y : Reg} {out : AluOut} (hx : x ≠ y)
    (hf : out.flag = none ∨ flagReg ≠ y) : (s.writeBack x out).reg y = s.reg y := by
  rcases out with ⟨_ | flag, _ | r⟩
  · rfl
  · exact (s.reg_setReg x r y).trans (if_neg hx)
  · rcases hf with hf | hf
    · cases hf
    · exact (s.reg_setReg flagReg _ y).trans (if_neg hf)
  · rcases hf with hf | hf
    · cases hf
    · exact (((s.setReg flagReg _).reg_setReg x r y).trans (if_neg hx)).trans
        ((s.reg_setReg flagReg _ y).trans (if_neg hf))

/-- After an ALU write-back with a result the destination holds it, whatever register that is. -/
theorem State.reg_writeBack_result {x : Reg} {out : AluOut} {r : Byte} (h : out.result = some r) :
    (s.writeBack x out).reg x = r := by
  rw [State.reg_writeBack, h]
  exact if_pos rfl

/-- After an ALU write-back with a flag, `VF` holds the flag unless it is the destination of a result. -/
theorem State.reg_writeBack_flag {x : Reg} {out : AluOut} {flag : Bool} (h : out.flag = some flag)
    (hx : x ≠ flagReg ∨ out.result = none) : (s.writeBack x out).reg flagReg = flagByte flag := by
  rw [State.reg_writeBack, h]
  rcases hr : out.result with _ | r
  · simp [State.reg_writeFlag]
  · rcases hx with hx | hx
    · simp [State.reg_writeFlag, hx]
    · simp [hr] at hx

@[simp] theorem State.writeBack_i (x : Reg) (out : AluOut) : (s.writeBack x out).i = s.i := by
  rcases out with ⟨_ | _, _ | _⟩ <;> rfl
@[simp] theorem State.writeBack_dt (x : Reg) (out : AluOut) : (s.writeBack x out).dt = s.dt := by
  rcases out with ⟨_ | _, _ | _⟩ <;> rfl
@[simp] theorem State.writeBack_st (x : Reg) (out : AluOut) : (s.writeBack x out).st = s.st := by
  rcases out with ⟨_ | _, _ | _⟩ <;> rfl
@[simp] theorem State.writeBack_pc (x : Reg) (out : AluOut) : (s.writeBack x out).pc = s.pc := by
  rcases out with ⟨_ | _, _ | _⟩ <;> rfl
@[simp] theorem State.writeBack_sp (x : Reg) (out : AluOut) : (s.writeBack x out).sp = s.sp := by
  rcases out with ⟨_ | _, _ | _⟩ <;> rfl
@[simp] theorem State.writeBack_stack (x : Reg) (out : AluOut) : (s.writeBack x out).stack = s.stack := by
  rcases out with ⟨_ | _, _ | _⟩ <;> rfl
@[simp] theorem State.writeBack_fault (x : Reg) (out : AluOut) : (s.writeBack x out).fault = s.fault := by
  rcases out with ⟨_ | _, _ | _⟩ <;> rfl
@[simp] theorem State.writeBack_ram (x : Reg) (out : AluOut) : (s.writeBack x out).ram = s.ram := by
  rcases out with ⟨_ | _, _ | _⟩ <;> rfl
@[simp] theorem State.writeBack_draws (x : Reg) (out : AluOut) : (s.writeBack x out).draws = s.draws := by
  rcases out with ⟨_ | _, _ | _⟩ <;> rfl

end Sys2Proof.Machine
end

