-- ==== Sys2Proof/Laws/Ops.lean ====
section
/-! SUPPORT. What each shared operation answers, said once: the program-counter controller, fault entry, the
fetch, the narrowing of a sum, and the cases of a step (spec/40_cycle.md R83, R88, R90; spec/60_exceptions.md R177). -/

namespace Sys2Proof.Machine

/-- `complete` always answers a next state: the handler's, with the directive applied to `pc`. -/
theorem complete_eq_next {d : NextPc} {s t : State} :
    complete d s = .next t ↔ t = s.setPc (d.target s.pc) := by
  simp only [complete, Host.Outcome.next.injEq]
  exact eq_comm

/-- Fault entry always answers a next state: only `fault` differs, and it records the `pc`. -/
theorem raise_eq_next {cause : Word → Fault} {s t : State} :
    raise cause s = .next t ↔ t = { s with fault := some (cause s.pc) } := by
  simp only [raise, Host.Outcome.next.injEq]
  exact eq_comm

@[simp] theorem backed_iff (a : Nat) : backed a = true ↔ a < Config.memSize := by simp [backed]

/-- A fetch answers the two bytes exactly when the second address is backed (R83). -/
theorem State.fetch_eq_some {s : State} {b0 b1 : Byte} :
    s.fetch = some (b0, b1) ↔
      s.pc.toNat + 1 < Config.memSize ∧ Memory.byteAt s.ram s.pc.toNat = b0 ∧
        Memory.byteAt s.ram (s.pc.toNat + 1) = b1 := by
  unfold State.fetch
  by_cases h : s.pc.toNat + 1 < Config.memSize
  · simp [backed, h]
  · simp [backed, h]

/-- A fetch answers nothing exactly when `pc + 1 >= MEM_SIZE` (R83). -/
theorem State.fetch_eq_none {s : State} : s.fetch = none ↔ Config.memSize ≤ s.pc.toNat + 1 := by
  unfold State.fetch
  by_cases h : s.pc.toNat + 1 < Config.memSize
  · simp [backed, h]
  · simp [backed, h, Nat.le_of_not_lt h]

@[simp] theorem narrowSum_wrap (w t : Nat) : narrowSum .wrap w t = some (BitVec.ofNat w t) := rfl

theorem narrowSum_trap_of_fits {w t : Nat} (h : t < 2 ^ w) : narrowSum .trap w t = some (BitVec.ofNat w t) :=
  if_pos h

theorem narrowSum_trap_of_overflow {w t : Nat} (h : 2 ^ w ≤ t) : narrowSum .trap w t = none :=
  if_neg (Nat.not_lt.2 h)

/-- What a step can do: nothing, if the core is faulted; take the fetch fault, if nothing is there to fetch; run the
decoded instruction, else. -/
theorem step_cases {s t : State} (h : step s = .next t) :
    (s.fault.isSome = true ∧ t = s) ∨
    (s.fault = none ∧ s.fetch = none ∧ t = { s with fault := some (.fetchOutOfBounds s.pc) }) ∨
    (∃ b0 b1, s.fault = none ∧ s.fetch = some (b0, b1) ∧ exec (decodeBytes b0 b1) s = .next t) := by
  unfold step at h
  split at h
  · rename_i f hf
    cases h
    exact .inl ⟨by simp [hf], rfl⟩
  · rename_i hf
    split at h
    · rename_i hn
      exact .inr (.inl ⟨hf, hn, raise_eq_next.1 h⟩)
    · rename_i b0 b1 hb
      exact .inr (.inr ⟨b0, b1, hf, hb, h⟩)

@[simp] theorem runCycles_zero (s : State) : runCycles 0 s = .next s := rfl

/-- A run of one more cycle goes on from where the step answers a next state. -/
theorem runCycles_succ {s t : State} (h : step s = .next t) (k : Nat) : runCycles (k + 1) s = runCycles k t := by
  simp only [runCycles, h]

/-- The model's run is the host's run of the core. -/
theorem runCycles_eq_core_run (k : Nat) : ∀ s : State, runCycles k s = Host.Core.run Sys2Proof.core k s := by
  have next : ∀ (M : Host.Core) (k : Nat) (s t : M.State), M.step s = .next t → M.run (k + 1) s = M.run k t := by
    intro M k s t h
    simp only [Host.Core.run, h]
  have fault : ∀ (M : Host.Core) (k : Nat) (s : M.State) (r : M.Fault),
      M.step s = .fault r → M.run (k + 1) s = .fault r := by
    intro M k s r h
    simp only [Host.Core.run, h]
  have refused : ∀ (M : Host.Core) (k : Nat) (s : M.State) (r : M.Refusal),
      M.step s = .refused r → M.run (k + 1) s = .refused r := by
    intro M k s r h
    simp only [Host.Core.run, h]
  induction k with
  | zero => exact fun _ => rfl
  | succ k ih =>
    intro s
    cases h : step s with
    | next t => exact (runCycles_succ h k).trans ((ih t).trans (next Sys2Proof.core k s t h).symm)
    | fault r =>
      have h' : runCycles (k + 1) s = .fault r := by simp only [runCycles, h]
      exact h'.trans (fault Sys2Proof.core k s r h).symm
    | refused r =>
      have h' : runCycles (k + 1) s = .refused r := by simp only [runCycles, h]
      exact h'.trans (refused Sys2Proof.core k s r h).symm

/-- What a reset asserted on any state leaves: the reset registers and the memory there was (R190, R191). -/
theorem assertReset_ram (s : State) : (assertReset s).ram = s.ram := rfl

/-- The word placed is the word the next cycle fetches, and the core is not stopped. -/
theorem State.placeWord_fetch {s : State} (b0 b1 : Byte) (hm : Memory.wf s.ram = true) :
    (s.placeWord b0 b1).fault = none ∧ (s.placeWord b0 b1).fetch = some (b0, b1) := by
  refine ⟨rfl, State.fetch_eq_some.2 ?_⟩
  have hpc : (s.placeWord b0 b1).pc.toNat + 1 < Config.memSize := by
    show (if backed (s.pc.toNat + 1) then s.pc else State.reset.pc).toNat + 1 < Config.memSize
    split
    · rename_i h
      exact (backed_iff _).1 h
    · decide
  refine ⟨hpc, ?_, ?_⟩
  · show Memory.byteAt (Memory.write (Memory.write s.ram (s.placeWord b0 b1).pc.toNat b0)
      ((s.placeWord b0 b1).pc.toNat + 1) b1) _ = b0
    rw [Memory.byteAt_write (Memory.write_wf _ _ hm) ((backed_iff _).2 hpc), if_neg (by omega),
      Memory.byteAt_write hm ((backed_iff _).2 (by omega)), if_pos rfl]
  · show Memory.byteAt (Memory.write (Memory.write s.ram (s.placeWord b0 b1).pc.toNat b0)
      ((s.placeWord b0 b1).pc.toNat + 1) b1) _ = b1
    rw [Memory.byteAt_write (Memory.write_wf _ _ hm) ((backed_iff _).2 hpc), if_pos rfl]

/-- A step from a state with a word placed runs exactly that word's instruction. -/
theorem step_withFetchWord {s : State} (nbits w : Nat) (hm : Memory.wf s.ram = true) :
    step (s.withFetchWord nbits w) =
      exec (decodeBytes ((BitVec.ofNat 16 (w % 2 ^ nbits)).extractLsb' 8 8)
        ((BitVec.ofNat 16 (w % 2 ^ nbits)).extractLsb' 0 8)) (s.withFetchWord nbits w) := by
  obtain ⟨hf, hb⟩ := State.placeWord_fetch ((BitVec.ofNat 16 (w % 2 ^ nbits)).extractLsb' 8 8)
    ((BitVec.ofNat 16 (w % 2 ^ nbits)).extractLsb' 0 8) hm
  simp only [step, State.withFetchWord, hf, hb]

end Sys2Proof.Machine
end

