-- ==== Sys2Proof/Laws/PerInstr.lean ====
section
/-! SUPPORT. Per instruction, as syntax: the word the encoder gives an instruction matches the instruction's own row
of the opcode map, `w & mask = match` (spec/30_encoding.md R64, R66). -/

namespace Sys2Proof.Laws.OwnRow

open Sys2Proof.Machine

def Statement (i : Instr) : Prop :=
  ∃ row, maskMatch[rowNumber i]? = some row ∧ encodeWord i &&& row.1 = row.2

/-- From a pattern that accepts the fields to its row. -/
theorem of_pattern (p : Pattern) (i : Instr) (hrow : maskMatch[rowNumber i]? = some (p.mask, p.value))
    (h : p.accepts (encodeFields i) = true) : Statement i :=
  ⟨_, hrow, (p.accepts_iff _).1 h⟩

theorem ret : Statement .ret := of_pattern ⟨some 0x0, some 0x0, some 0xE, some 0xE⟩ _ rfl rfl

theorem jpAddr (nnn : Addr) : Statement (.jpAddr nnn) := of_pattern ⟨some 0x1, none, none, none⟩ _ rfl rfl

theorem callAddr (nnn : Addr) : Statement (.callAddr nnn) := of_pattern ⟨some 0x2, none, none, none⟩ _ rfl rfl

theorem seVxByte (x : Reg) (kk : Byte) : Statement (.seVxByte x kk) :=
  of_pattern ⟨some 0x3, none, none, none⟩ _ rfl rfl

theorem sneVxByte (x : Reg) (kk : Byte) : Statement (.sneVxByte x kk) :=
  of_pattern ⟨some 0x4, none, none, none⟩ _ rfl rfl

theorem seVxVy (x y : Reg) : Statement (.seVxVy x y) := of_pattern ⟨some 0x5, none, none, some 0x0⟩ _ rfl rfl

theorem ldVxByte (x : Reg) (kk : Byte) : Statement (.ldVxByte x kk) :=
  of_pattern ⟨some 0x6, none, none, none⟩ _ rfl rfl

theorem addVxByte (x : Reg) (kk : Byte) : Statement (.addVxByte x kk) :=
  of_pattern ⟨some 0x7, none, none, none⟩ _ rfl rfl

theorem ldVxVy (x y : Reg) : Statement (.ldVxVy x y) := of_pattern ⟨some 0x8, none, none, some 0x0⟩ _ rfl rfl

theorem orVxVy (x y : Reg) : Statement (.orVxVy x y) := of_pattern ⟨some 0x8, none, none, some 0x1⟩ _ rfl rfl

theorem andVxVy (x y : Reg) : Statement (.andVxVy x y) := of_pattern ⟨some 0x8, none, none, some 0x2⟩ _ rfl rfl

theorem xorVxVy (x y : Reg) : Statement (.xorVxVy x y) := of_pattern ⟨some 0x8, none, none, some 0x3⟩ _ rfl rfl

theorem addVxVy (x y : Reg) : Statement (.addVxVy x y) := of_pattern ⟨some 0x8, none, none, some 0x4⟩ _ rfl rfl

theorem subVxVy (x y : Reg) : Statement (.subVxVy x y) := of_pattern ⟨some 0x8, none, none, some 0x5⟩ _ rfl rfl

theorem shrVx (x y : Reg) : Statement (.shrVx x y) := of_pattern ⟨some 0x8, none, none, some 0x6⟩ _ rfl rfl

theorem subnVxVy (x y : Reg) : Statement (.subnVxVy x y) := of_pattern ⟨some 0x8, none, none, some 0x7⟩ _ rfl rfl

theorem shlVx (x y : Reg) : Statement (.shlVx x y) := of_pattern ⟨some 0x8, none, none, some 0xE⟩ _ rfl rfl

theorem sneVxVy (x y : Reg) : Statement (.sneVxVy x y) := of_pattern ⟨some 0x9, none, none, some 0x0⟩ _ rfl rfl

theorem ldIAddr (nnn : Addr) : Statement (.ldIAddr nnn) := of_pattern ⟨some 0xA, none, none, none⟩ _ rfl rfl

theorem jpV0Addr (nnn : Addr) : Statement (.jpV0Addr nnn) := of_pattern ⟨some 0xB, none, none, none⟩ _ rfl rfl

theorem rndVxByte (x : Reg) (kk : Byte) : Statement (.rndVxByte x kk) :=
  of_pattern ⟨some 0xC, none, none, none⟩ _ rfl rfl

theorem ldVxDt (x : Reg) : Statement (.ldVxDt x) := of_pattern ⟨some 0xF, none, some 0x0, some 0x7⟩ _ rfl rfl

theorem ldDtVx (x : Reg) : Statement (.ldDtVx x) := of_pattern ⟨some 0xF, none, some 0x1, some 0x5⟩ _ rfl rfl

theorem ldStVx (x : Reg) : Statement (.ldStVx x) := of_pattern ⟨some 0xF, none, some 0x1, some 0x8⟩ _ rfl rfl

theorem addIVx (x : Reg) : Statement (.addIVx x) := of_pattern ⟨some 0xF, none, some 0x1, some 0xE⟩ _ rfl rfl

theorem nop (w : Word) : Statement (.nop w) := of_pattern ⟨none, none, none, none⟩ _ rfl rfl

end Sys2Proof.Laws.OwnRow
end

