-- ==== Sys2Proof/Machine/Assembly.lean ====
section
/-! DEFINITION. The assembly syntax (spec/30_encoding.md R70, R71), as the text of an instruction. It is no part of
the machine: nothing else reads it. -/

namespace Sys2Proof.Machine

/-- One hexadecimal digit, as `V0` to `VF` write it (R70). -/
def hexDigit (d : Nat) : Char := ['0', '1', '2', '3', '4', '5', '6', '7', '8', '9', 'A', 'B', 'C', 'D', 'E', 'F'].getD d '0'

/-- The low `digits` hexadecimal digits of a number, the most significant first. -/
def hexDigits : Nat → Nat → List Char
  | 0, _ => []
  | digits + 1, v => hexDigits digits (v / 16) ++ [hexDigit (v % 16)]

/-- A constant, "hexadecimal with the prefix 0x" (R70). -/
def asmConst (digits v : Nat) : String := "0x" ++ String.ofList (hexDigits digits v)

/-- A register operand (R70). -/
def asmReg (x : Reg) : String := "V" ++ String.ofList [hexDigit x.val]

/-- A mnemonic with two operands. -/
def asmTwo (mnemonic a b : String) : String := mnemonic ++ " " ++ a ++ "," ++ b

/-- The statement of an instruction: "a mnemonic, then operands separated by commas" (R70); `NOP` is written with its
word (R71); the ignored `y` of `SHR` and `SHL` is not written. -/
def assembly : Instr → String
  | .ret => "RET"
  | .jpAddr nnn => "JP " ++ asmConst 3 nnn.toNat
  | .callAddr nnn => "CALL " ++ asmConst 3 nnn.toNat
  | .seVxByte x kk => asmTwo "SE" (asmReg x) (asmConst 2 kk.toNat)
  | .sneVxByte x kk => asmTwo "SNE" (asmReg x) (asmConst 2 kk.toNat)
  | .seVxVy x y => asmTwo "SE" (asmReg x) (asmReg y)
  | .ldVxByte x kk => asmTwo "LD" (asmReg x) (asmConst 2 kk.toNat)
  | .addVxByte x kk => asmTwo "ADD" (asmReg x) (asmConst 2 kk.toNat)
  | .ldVxVy x y => asmTwo "LD" (asmReg x) (asmReg y)
  | .orVxVy x y => asmTwo "OR" (asmReg x) (asmReg y)
  | .andVxVy x y => asmTwo "AND" (asmReg x) (asmReg y)
  | .xorVxVy x y => asmTwo "XOR" (asmReg x) (asmReg y)
  | .addVxVy x y => asmTwo "ADD" (asmReg x) (asmReg y)
  | .subVxVy x y => asmTwo "SUB" (asmReg x) (asmReg y)
  | .shrVx x _ => "SHR " ++ asmReg x
  | .subnVxVy x y => asmTwo "SUBN" (asmReg x) (asmReg y)
  | .shlVx x _ => "SHL " ++ asmReg x
  | .sneVxVy x y => asmTwo "SNE" (asmReg x) (asmReg y)
  | .ldIAddr nnn => asmTwo "LD" "I" (asmConst 3 nnn.toNat)
  | .jpV0Addr nnn => asmTwo "JP" "V0" (asmConst 3 nnn.toNat)
  | .rndVxByte x kk => asmTwo "RND" (asmReg x) (asmConst 2 kk.toNat)
  | .ldVxDt x => asmTwo "LD" (asmReg x) "DT"
  | .ldDtVx x => asmTwo "LD" "DT" (asmReg x)
  | .ldStVx x => asmTwo "LD" "ST" (asmReg x)
  | .addIVx x => asmTwo "ADD" "I" (asmReg x)
  | .nop w => "NOP (" ++ asmConst 4 w.toNat ++ ")"

end Sys2Proof.Machine
end

