-- ==== Sys2Proof/Tests/Slice0.lean ====
section
/-! SUPPORT. The model's own tests: the well-formedness smoke test, words decoded as the spec writes them, one-step
vectors of spec/95_test_vectors.md ("V <word>" names its line there), and a witness for the hypotheses of every
statement that has some ("W O<n>"). -/

namespace Sys2Proof.Tests

open Sys2Proof Sys2Proof.Machine

/-! Helpers. -/

/-- The reset state with some of `V` set. -/
def regs (vs : List (Reg × Byte)) : State := vs.foldl (fun s p => s.setReg p.1 p.2) State.reset

/-- The state an answer gives; a stop gives a state no test expects. -/
def stateOf (s : State) : Result → State
  | .next t => t
  | .fault _ => { s with draws := 999 }
  | .refused _ => { s with draws := 999 }

/-- The state after one cycle that fetches the word. -/
def after (w : Nat) (s : State) : State := stateOf s (step (s.withFetchWord 16 w))

/-- Some registers of a state, for short comparisons. -/
def look (s : State) (vs : List Reg) : List Nat := s.pc.toNat :: vs.map fun x => (s.reg x).toNat

/-! Well-formedness: a default no-operation carries no word of another row (R68). -/

theorem test_wf_refuses_other_rows :
    [0x00EE, 0x1123, 0x2206, 0x3000, 0x4311, 0x5120, 0x6005, 0x7003, 0x8120, 0x8124, 0x8127, 0x812E].all
      (fun w => ! Instr.wf (.nop w)) = true := by decide

theorem test_wf_refuses_other_rows_high :
    [0x9120, 0xA123, 0xB204, 0xC2F0, 0xF307, 0xF015, 0xF318, 0xF01E].all
      (fun w => ! Instr.wf (.nop w)) = true := by decide

/-- The words of vector group 2.6. -/
theorem test_wf_accepts_unlisted_words :
    [0x0000, 0x00E0, 0x0123, 0x5121, 0x8128, 0x812F, 0x9121, 0xD125, 0xE19E, 0xE1A1, 0xF10A, 0xF129, 0xF133,
      0xF155, 0xF165, 0xF090, 0xFFFF].all (fun w => Instr.wf (.nop w)) = true := by decide

/-! Decoding: words the spec writes out (R72, 95_test_vectors.md). -/

theorem test_decode_ret : decodeTableWord 16 0x00EE = some .ret := by decide
theorem test_decode_jp : decodeTableWord 16 0x1123 = some (.jpAddr 0x123) := by decide
theorem test_decode_call : decodeTableWord 16 0x2ABC = some (.callAddr 0xABC) := by decide
theorem test_decode_se_byte : decodeTableWord 16 0x3FFF = some (.seVxByte 15 0xFF) := by decide
theorem test_decode_sne_byte : decodeTableWord 16 0x4311 = some (.sneVxByte 3 0x11) := by decide
theorem test_decode_se_reg : decodeTableWord 16 0x5120 = some (.seVxVy 1 2) := by decide
theorem test_decode_ld_byte : decodeTableWord 16 0x6A3C = some (.ldVxByte 10 0x3C) := by decide
theorem test_decode_add_byte : decodeTableWord 16 0x7F02 = some (.addVxByte 15 2) := by decide
theorem test_decode_ld_reg : decodeTableWord 16 0x81F0 = some (.ldVxVy 1 15) := by decide
theorem test_decode_or : decodeTableWord 16 0x8121 = some (.orVxVy 1 2) := by decide
theorem test_decode_and : decodeTableWord 16 0x8122 = some (.andVxVy 1 2) := by decide
theorem test_decode_xor : decodeTableWord 16 0x8123 = some (.xorVxVy 1 2) := by decide
theorem test_decode_add : decodeTableWord 16 0x8F14 = some (.addVxVy 15 1) := by decide
theorem test_decode_sub : decodeTableWord 16 0x81F5 = some (.subVxVy 1 15) := by decide
theorem test_decode_shr : decodeTableWord 16 0x8126 = some (.shrVx 1 2) := by decide
theorem test_decode_subn : decodeTableWord 16 0x8F17 = some (.subnVxVy 15 1) := by decide
theorem test_decode_shl : decodeTableWord 16 0x812E = some (.shlVx 1 2) := by decide
theorem test_decode_sne_reg : decodeTableWord 16 0x9090 = some (.sneVxVy 0 9) := by decide
theorem test_decode_ld_i : decodeTableWord 16 0xA123 = some (.ldIAddr 0x123) := by decide
theorem test_decode_jp_v0 : decodeTableWord 16 0xB204 = some (.jpV0Addr 0x204) := by decide
theorem test_decode_rnd : decodeTableWord 16 0xC2F0 = some (.rndVxByte 2 0xF0) := by decide
theorem test_decode_ld_from_dt : decodeTableWord 16 0xF307 = some (.ldVxDt 3) := by decide
theorem test_decode_ld_to_dt : decodeTableWord 16 0xFF15 = some (.ldDtVx 15) := by decide
theorem test_decode_ld_to_st : decodeTableWord 16 0xF318 = some (.ldStVx 3) := by decide
theorem test_decode_add_i : decodeTableWord 16 0xF11E = some (.addIVx 1) := by decide
theorem test_decode_default : decodeTableWord 16 0xF10A = some (.nop 0xF10A) := by decide

/-- The first byte of memory is the high byte of the word (R41). -/
theorem test_decode_byte_order : decode [0x60, 0x05, 0x70, 0x03] = .ok (.ldVxByte 0 5, [0x70, 0x03]) := by decide

theorem test_decode_truncated : decode [0x60] = .error .truncated := by decide

/-- The `mask` and `match` columns of R66 are those of the patterns, row by row. -/
theorem test_rows_are_the_table :
    opcodeMap.map (fun r => (r.pattern.mask, r.pattern.value)) = maskMatch := by decide

/-! The assembly syntax (R70, R71). -/

theorem test_assembly :
    assembly (.sneVxVy 0 9) = "SNE V0,V9" ∧ assembly (.jpV0Addr 0x204) = "JP V0,0x204" ∧
      assembly (.shrVx 15 2) = "SHR VF" ∧ assembly (.nop 0x0000) = "NOP (0x0000)" := by decide

/-! The parameters: "constraint 0x202 <= MEM_SIZE <= 0x10000" (R5); the conventional font has 80 bytes (R48). -/

theorem test_mem_size_in_range : 0x202 ≤ Config.memSize ∧ Config.memSize ≤ 0x10000 := by decide
theorem test_conventional_font_size : Config.conventionalFont.length = Config.fontSize := by decide

/-! One step of each instruction. -/

/-- V 0x00EE: the target is `stack[old sp]`, with no 2 added. -/
theorem test_ret_target :
    let t := after 0x00EE { State.reset with sp := 3, stack := State.reset.stack.set 3 0x0456, pc := 0x0300 }
    (t.sp, t.pc, t.fault) = (2, 0x0456, none) := by decide

/-- V 0x00EE: underflow. -/
theorem test_ret_underflow :
    after 0x00EE State.reset =
      { State.reset.withFetchWord 16 0x00EE with fault := some (.stackUnderflow 0x0200) } := by decide

/-- V 0x1123. -/
theorem test_jp_odd : (after 0x1123 State.reset).pc = 0x0123 := by decide

/-- V 0x1200: the fixed point. -/
theorem test_jp_self : after 0x1200 State.reset = State.reset.withFetchWord 16 0x1200 := by decide

/-- V 0x2ABC: the deepest legal nesting; the stack is not written. -/
theorem test_call_deepest :
    let t := after 0x2ABC { State.reset with sp := 14 }
    (t.sp, t.pc, t.fault, t.stack) = (15, 0x0ABC, none, State.reset.stack) := by decide

/-- V 0x2ABC: overflow. -/
theorem test_call_overflow :
    let t := after 0x2ABC { State.reset with sp := 15 }
    (t.sp, t.pc, t.fault) = (15, 0x0200, some (.stackOverflow 0x0200)) := by decide

/-- V 0xBFFF: no 12-bit mask. -/
theorem test_jp_v0_unmasked : (after 0xBFFF (regs [(0, 0xFF)])).pc = 0x10FE := by decide

/-- V 0x3000, both outcomes. -/
theorem test_se_byte :
    (after 0x3000 { State.reset with pc := 0x020A }).pc = 0x020E ∧
    (after 0x3000 { regs [(0, 0x01)] with pc := 0x020A }).pc = 0x020C := by decide

/-- V 0x4311, 0x4310. -/
theorem test_sne_byte :
    (after 0x4311 { regs [(3, 0x10)] with pc := 0x0300 }).pc = 0x0304 ∧
    (after 0x4310 { regs [(3, 0x10)] with pc := 0x0300 }).pc = 0x0302 := by decide

/-- V 0x5120, both outcomes, and 0x5330. -/
theorem test_se_reg :
    (after 0x5120 (regs [(1, 7), (2, 7)])).pc = 0x0204 ∧ (after 0x5120 (regs [(1, 7), (2, 8)])).pc = 0x0202 ∧
    (after 0x5330 (regs [(3, 0x99)])).pc = 0x0204 := by decide

/-- V 0x9120, 0x9990, 0x9090. -/
theorem test_sne_reg :
    (after 0x9120 (regs [(1, 7), (2, 8)])).pc = 0x0204 ∧ (after 0x9990 (regs [(9, 0x55)])).pc = 0x0202 ∧
    (after 0x9090 (regs [(9, 0x55)])).pc = 0x0204 ∧ (after 0x9090 State.reset).pc = 0x0202 := by decide

/-- V 0x6AFF, 0x6F80. -/
theorem test_ld_byte :
    look (after 0x6AFF (regs [(10, 0x01)])) [10] = [0x0202, 0xFF] ∧
    look (after 0x6F80 State.reset) [15] = [0x0202, 0x80] := by decide

/-- V 0x7001: wrap, no flag. -/
theorem test_add_byte_wraps :
    look (after 0x7001 (regs [(0, 0xFF)])) [0, 15] = [0x0202, 0x00, 0x00] ∧
    look (after 0x7F02 (regs [(15, 0xFF)])) [15] = [0x0202, 0x01] := by decide

/-- V 0x7001, 0x7000 under `trap`. -/
theorem test_add_byte_traps :
    stateOf State.reset (addImmediate .trap 0 1 (regs [(0, 0xFF)])) =
      { regs [(0, 0xFF)] with fault := some (.arithmeticOverflow 0x0200) } ∧
    look (stateOf State.reset (addImmediate .trap 0 0 (regs [(0, 0x42)]))) [0] = [0x0202, 0x42] := by decide

/-- V 0x81F0. -/
theorem test_ld_reg : look (after 0x81F0 (regs [(15, 0x01), (1, 0x09)])) [1, 15] = [0x0202, 0x01, 0x01] := by decide

/-- V 0x8121: the flag is not cleared. -/
theorem test_or : look (after 0x8121 (regs [(1, 0x0F), (2, 0xA0), (15, 1)])) [1, 2, 15] = [0x0202, 0xAF, 0xA0, 1] := by
  decide

/-- V 0x8122. -/
theorem test_and : look (after 0x8122 (regs [(1, 0x3C), (2, 0x0F)])) [1, 15] = [0x0202, 0x0C, 0] := by decide

/-- V 0x8123, 0x8113. -/
theorem test_xor :
    look (after 0x8123 (regs [(1, 0xFF), (2, 0x0F)])) [1] = [0x0202, 0xF0] ∧
    look (after 0x8113 (regs [(1, 0xAB)])) [1] = [0x0202, 0x00] := by decide

/-- V 0x8124: sums 255 and 256. -/
theorem test_add_carry :
    look (after 0x8124 (regs [(1, 0xFF), (2, 0x00), (15, 1)])) [1, 15] = [0x0202, 0xFF, 0] ∧
    look (after 0x8124 (regs [(1, 0xFF), (2, 0x01)])) [1, 15] = [0x0202, 0x00, 1] := by decide

/-- V 0x8F14, 0x81F4. -/
theorem test_add_flag_operand :
    look (after 0x8F14 (regs [(15, 0xF0), (1, 0x20)])) [15] = [0x0202, 0x10] ∧
    look (after 0x81F4 (regs [(1, 0xFF), (15, 0x01)])) [1, 15] = [0x0202, 0x00, 1] := by decide

/-- V 0x8125: below, equal, above. -/
theorem test_sub :
    look (after 0x8125 (regs [(1, 5), (2, 9), (15, 1)])) [1, 15] = [0x0202, 5, 0] ∧
    look (after 0x8125 (regs [(1, 7), (2, 7), (15, 1)])) [1, 15] = [0x0202, 0, 0] ∧
    look (after 0x8125 (regs [(1, 9), (2, 5)])) [1, 15] = [0x0202, 4, 1] := by decide

/-- V 0x8F15, 0x81F5. -/
theorem test_sub_flag_operand :
    look (after 0x8F15 (regs [(15, 9), (1, 5)])) [15] = [0x0202, 4] ∧
    look (after 0x8F15 (regs [(15, 5), (1, 9)])) [15] = [0x0202, 0] ∧
    look (after 0x81F5 (regs [(1, 9), (15, 5)])) [1, 15] = [0x0202, 4, 1] := by decide

/-- V 0x8126, 0x8106. -/
theorem test_shr :
    look (after 0x8126 (regs [(1, 0xFF), (2, 0x10)])) [1, 2, 15] = [0x0202, 0x7F, 0x10, 1] ∧
    look (after 0x8106 (regs [(1, 0x80), (15, 1)])) [1, 15] = [0x0202, 0x40, 0] := by decide

/-- V 0x8F06. -/
theorem test_shr_flag : look (after 0x8F06 (regs [(15, 0x03)])) [15] = [0x0202, 0x01] := by decide

/-- V 0x8127: above, below, equal. -/
theorem test_subn :
    look (after 0x8127 (regs [(1, 5), (2, 9)])) [1, 15] = [0x0202, 4, 1] ∧
    look (after 0x8127 (regs [(1, 9), (2, 5), (15, 1)])) [1, 15] = [0x0202, 9, 0] ∧
    look (after 0x8127 (regs [(1, 7), (2, 7), (15, 1)])) [1, 15] = [0x0202, 0, 0] := by decide

/-- V 0x8F17, 0x81F7. -/
theorem test_subn_flag_operand :
    look (after 0x8F17 (regs [(15, 9), (1, 5)])) [15] = [0x0202, 0] ∧
    look (after 0x81F7 (regs [(1, 5), (15, 9)])) [1, 15] = [0x0202, 4, 1] := by decide

/-- V 0x810E, 0x812E. -/
theorem test_shl :
    look (after 0x810E (regs [(1, 0x81)])) [1, 15] = [0x0202, 0x02, 1] ∧
    look (after 0x812E (regs [(1, 0x01), (2, 0xFF)])) [1, 2, 15] = [0x0202, 0x02, 0xFF, 0] := by decide

/-- V 0x8F0E. -/
theorem test_shl_flag : look (after 0x8F0E (regs [(15, 0x41)])) [15] = [0x0202, 0x82] := by decide

/-- V 0xAFFF. -/
theorem test_ld_i : (after 0xAFFF { State.reset with i := 0xFFFF }).i = 0x0FFF := by decide

/-- V 0xC200: the only deterministic form; and one draw is made. -/
theorem test_rnd_mask_zero :
    (after 0xC200 (regs [(2, 0x55)])).draws = 1 ∧
    (stateOf State.reset (exec (.rndVxByte 2 0x00) (regs [(2, 0x55)]))).reg 2 = 0x00 :=
  ⟨by decide, by simp [stateOf, exec, execRndVxByte, complete]⟩

/-- V 0xC2FF: the draw itself. -/
theorem test_rnd_mask_full :
    (stateOf State.reset (exec (.rndVxByte 2 0xFF) State.reset)).reg 2 = Config.randomByte 0 := by
  have h : (0xFF : Byte) = BitVec.allOnes 8 := by decide
  simp only [stateOf, exec, execRndVxByte, complete, State.reg_setPc, State.reg_setReg, if_true, h, BitVec.allOnes_and]
  rfl

/-- V 0xF307. -/
theorem test_ld_from_dt : look (after 0xF307 { State.reset with dt := 0x04 }) [3] = [0x0202, 0x04] := by decide

/-- V 0xF015. -/
theorem test_ld_to_dt : (after 0xF015 { regs [(0, 0x04)] with dt := 0x80 }).dt = 0x04 := by decide

/-- V 0xF318. -/
theorem test_ld_to_st :
    let t := after 0xF318 (regs [(3, 0x04)])
    (t.st, t.dt) = (0x04, 0x00) := by decide

/-- V 0xF11E: no 12-bit mask; the 16-bit wrap; no flag. -/
theorem test_add_i :
    (after 0xF11E { regs [(1, 0x01)] with i := 0x0FFF }).i = 0x1000 ∧
    (after 0xF11E { regs [(1, 0xFF), (15, 1)] with i := 0xFF80 }).i = 0x007F ∧
    (after 0xF11E { regs [(1, 0xFF), (15, 1)] with i := 0xFF80 }).reg 15 = 1 := by decide

/-- V 0xF11E under `trap`. -/
theorem test_add_i_traps :
    (stateOf State.reset (addIndex .trap 1 { regs [(1, 0x01)] with i := 0xFFFF })).fault =
      some (.arithmeticOverflow 0x0200) := by decide

/-- V group 2.6: `00E0`, `Dxyn`, `Fx55` and the rest only advance. -/
theorem test_default_only_advances :
    [0x0000, 0x00E0, 0xD125, 0xE19E, 0xF10A, 0xF155, 0xFFFF].all (fun w =>
      let s := { regs [(1, 0x11), (2, 0x22)] with i := 0x0300, dt := 5, st := 6, sp := 2 }
      decide (after w s = { s.withFetchWord 16 w with pc := 0x0202 })) = true := by decide

/-! The fetch. -/

/-- The last fetch that succeeds, and the first that does not. -/
theorem test_fetch_bounds :
    (after 0x0000 { State.reset with pc := 0x0FFE }).pc = 0x1000 ∧
    step { State.reset with pc := 0x0FFF } =
      .next { State.reset with pc := 0x0FFF, fault := some (.fetchOutOfBounds 0x0FFF) } :=
  ⟨by decide, rfl⟩

/-- `pc + 1 = 0x10000` is not wrapped to 0. -/
theorem test_fetch_no_wrap :
    (stateOf State.reset (step { State.reset with pc := 0xFFFF })).fault = some (.fetchOutOfBounds 0xFFFF) := by decide

/-- V 0x6005 at an odd address. -/
theorem test_fetch_odd :
    look (after 0x6005 { State.reset with pc := 0x0201 }) [0] = [0x0203, 0x05] := by decide

/-- A faulted core does not cycle (R81). -/
theorem test_faulted_core_stops :
    step { State.reset with fault := some (.stackUnderflow 0x0200) } =
      .next { State.reset with fault := some (.stackUnderflow 0x0200) } := rfl

/-! Boot: the source's program P1, its first cycle (T7). -/

theorem test_boot_first_cycle :
    let s := stateOf State.reset (boot [0x60, 0x05, 0x70, 0x03])
    (s.ram, s.pc) = ([(0x200, 0x60), (0x201, 0x05), (0x202, 0x70), (0x203, 0x03)], 0x0200) ∧
    look (stateOf s (step s)) [0] = [0x0202, 5] := by decide

/-! Witnesses: a state and operands that meet the hypotheses of each statement, one for each clause that has its own. -/

/-- A state at 0x0200 that stands on the word. -/
def at0200 (w : Nat) : State := State.reset.withFetchWord 16 w

/-- W O2: a well-formed instruction of the one row with a condition. -/
theorem test_witness_O2 : Instr.wf (.nop 0x00E0) = true ∧ Instr.wf (.shrVx 15 15) = true := by decide

/-- W O5: the first and the last pattern before the default. -/
theorem test_witness_O5 :
    (0 : Nat) < 24 ∧ 24 < 25 ∧ maskMatch[0]? = some (0xFFFF, 0x00EE) ∧ maskMatch[24]? = some (0xF0FF, 0xF01E) ∧
      (0x00EE : Word) &&& 0xFFFF = 0x00EE := by decide

/-- W O6: both sides of the equivalence, and the second clause. -/
theorem test_witness_O6 : isDefaultWord 0xFFFF = true ∧ decodeWord 0xFFFF = .nop 0xFFFF := by decide

/-- W O7: both lengths of a byte string that is too short. -/
theorem test_witness_O7 : ([] : List Byte).length < 2 ∧ [(0x60 : Byte)].length < 2 := by decide

/-- W O8. -/
theorem test_witness_O8 :
    (at0200 0x6005).fault = none ∧
    Memory.read (at0200 0x6005).ram (at0200 0x6005).pc.toNat = some 0x60 ∧
    Memory.read (at0200 0x6005).ram ((at0200 0x6005).pc.toNat + 1) = some 0x05 ∧
    decode [0x60, 0x05] = .ok (.ldVxByte 0 5, []) ∧ Instr.wf (.ldVxByte 0 5) = true := by decide

/-- W O9: `pc` at the two sides of the bound. -/
theorem test_witness_O9 :
    State.reset.fault = none ∧ (0x0FFF : Word).toNat + 1 ≥ Config.memSize ∧
      (0x0FFE : Word).toNat + 1 < Config.memSize := by decide

/-- W O10. -/
theorem test_witness_O10 :
    { State.reset with fault := some (.stackUnderflow 0x0200) }.fault.isSome = true := by decide

/-- W O12: one of each directive. -/
theorem test_witness_O12 :
    exec (.nop 0) State.reset = .next { State.reset with pc := 0x0202 } ∧ handlerFault (.nop 0) State.reset = none ∧
      directiveOf (.nop 0) State.reset = .next ∧
    exec (.seVxByte 0 0) State.reset = .next { State.reset with pc := 0x0204 } ∧
      handlerFault (.seVxByte 0 0) State.reset = none ∧ directiveOf (.seVxByte 0 0) State.reset = .skip ∧
    exec (.jpAddr 0x123) State.reset = .next { State.reset with pc := 0x0123 } ∧
      handlerFault (.jpAddr 0x123) State.reset = none ∧
      directiveOf (.jpAddr 0x123) State.reset = .jump 0x0123 := by
  refine ⟨rfl, rfl, rfl, rfl, rfl, rfl, rfl, rfl, rfl⟩

/-- W O13: the least and the greatest `sp` with an entry, and one without. -/
theorem test_witness_O13 :
    { State.reset with sp := 1 }.sp ≠ 0 ∧ { State.reset with sp := 15 }.sp ≠ 0 ∧
      { State.reset with sp := 15 }.sp.toNat < 16 ∧ { State.reset with sp := 16 }.sp ≠ 0 := by decide

/-- W O14. -/
theorem test_witness_O14 : State.reset.sp = 0 := by decide

/-- W O15: the clause of the fixed point. -/
theorem test_witness_O15 : State.reset.pc.toNat = (0x200 : Addr).toNat := by decide

/-- W O16: the greatest `sp` below 15, and one above it. -/
theorem test_witness_O16 :
    { State.reset with sp := 14 }.sp ≠ 15 ∧ { State.reset with sp := 14 }.sp.toNat < 16 ∧
      { State.reset with sp := 16 }.sp ≠ 15 := by decide

/-- W O17. -/
theorem test_witness_O17 : { State.reset with sp := 15 }.sp = 15 := by decide

/-- W O19, O20: equal and different, at the ends of the immediate. -/
theorem test_witness_O19_O20 :
    State.reset.reg 0 = 0x00 ∧ State.reset.reg 15 ≠ 0xFF ∧ (regs [(15, 0xFF)]).reg 15 = 0xFF := by decide

/-- W O21, O22: equal and different registers, and the ends of the other values of `n`. -/
theorem test_witness_O21_O22 :
    (regs [(1, 7), (2, 7)]).reg 1 = (regs [(1, 7), (2, 7)]).reg 2 ∧
      (regs [(1, 7), (2, 8)]).reg 1 ≠ (regs [(1, 7), (2, 8)]).reg 2 ∧
      (0 : Nat) < 1 ∧ 1 < 16 ∧ (0 : Nat) < 15 ∧ 15 < 16 := by decide

/-- W O25 to O28: the clause of one register as both operands; W O29, O31, O33: a destination other than `VF`. -/
theorem test_witness_O25_O29 : (15 : Reg) = 15 ∧ (14 : Reg) ≠ 15 := by decide

/-- W O30, O32: at the bound of the guard, below it and above it. -/
theorem test_witness_O30_O32 :
    (regs [(1, 7), (2, 7)]).reg 1 ≥ (regs [(1, 7), (2, 7)]).reg 2 ∧
      ((regs [(1, 7), (2, 8)]).reg 1).toNat < ((regs [(1, 7), (2, 8)]).reg 2).toNat ∧
      ((regs [(1, 9), (2, 8)]).reg 1).toNat > ((regs [(1, 9), (2, 8)]).reg 2).toNat ∧ (1 : Reg) ≠ 15 := by decide

/-- W O34. -/
theorem test_witness_O34 :
    ((regs [(15, 9), (1, 5)]).reg 15).toNat = 9 ∧ ((regs [(15, 9), (1, 5)]).reg 1).toNat = 5 ∧ (1 : Reg) ≠ 15 := by
  decide

/-- W O36, O37, O39: an instruction other than the one the second clause leaves out. -/
theorem test_witness_O36_O37_O39 :
    exec (.nop 0) State.reset = .next { State.reset with pc := 0x0202 } ∧
      (∀ x kk, Instr.nop 0 ≠ .rndVxByte x kk) ∧ (∀ y, Instr.nop 0 ≠ .ldDtVx y) ∧
      exec (.nop 0) (State.reset.setSt 7) = .next { State.reset.setSt 7 with pc := 0x0202 } := by
  refine ⟨rfl, ?_, ?_, rfl⟩
  · intro x kk h
    cases h
  · intro y h
    cases h

/-- W O41: a word of no row before the default. -/
theorem test_witness_O41 :
    ((maskMatch.take 25).all fun row => (0x00E0 : Word) &&& row.1 != row.2) = true ∧
      ∀ k row, k < 25 → maskMatch[k]? = some row → (0x00E0 : Word) &&& row.1 ≠ row.2 := by
  have h : ((maskMatch.take 25).all fun row => (0x00E0 : Word) &&& row.1 != row.2) = true := by decide
  refine ⟨h, fun k row hk hrow hw => ?_⟩
  have hmem : row ∈ maskMatch.take 25 :=
    List.mem_of_getElem? (i := k) (by rw [List.getElem?_take_of_lt hk]; exact hrow)
  have := List.all_eq_true.1 h row hmem
  exact absurd hw (by simpa using this)

/-- W O42, O45: without and with a fault of the handler. -/
theorem test_witness_O42_O45 :
    exec (.callAddr 0x206) State.reset = .next { State.reset with sp := 1, pc := 0x0206 } ∧
      handlerFault (.callAddr 0x206) State.reset = none ∧
    exec .ret State.reset = .next { State.reset with fault := some (.stackUnderflow 0x0200) } ∧
      handlerFault .ret State.reset = some (.stackUnderflow 0x0200) := by
  refine ⟨rfl, rfl, rfl, rfl⟩

/-- W O43: two states that differ in a register the instruction does not read. -/
theorem test_witness_O43 :
    sameOn (.pc :: .fault :: readSet (.ldDtVx 0) State.reset) State.reset (State.reset.setI 5) ∧
      State.reset ≠ State.reset.setI 5 ∧
      exec (.ldDtVx 0) State.reset = .next { State.reset with pc := 0x0202 } ∧
      exec (.ldDtVx 0) (State.reset.setI 5) = .next { State.reset.setI 5 with pc := 0x0202 } := by
  refine ⟨?_, by decide, rfl, rfl⟩
  intro p hp
  simp only [readSet, List.mem_cons, List.not_mem_nil, or_false] at hp
  rcases hp with rfl | rfl | rfl <;> rfl

/-- W O44: one of the five with another destination than `VF`, and another instruction that changes `VF`. -/
theorem test_witness_O44 :
    exec (.shlVx 1 0) State.reset = .next { State.reset with pc := 0x0202 } ∧ writesFlag (.shlVx 1 0) = true ∧
      (∀ x y, Instr.shlVx 1 0 = .addVxVy x y ∨ Instr.shlVx 1 0 = .subVxVy x y ∨ Instr.shlVx 1 0 = .shrVx x y ∨
        Instr.shlVx 1 0 = .subnVxVy x y ∨ Instr.shlVx 1 0 = .shlVx x y → x ≠ 15) ∧
    exec (.ldVxByte 15 7) State.reset = .next { regs [(15, 7)] with pc := 0x0202 } ∧
      writesFlag (.ldVxByte 15 7) = false ∧ (regs [(15, 7)]).reg 15 ≠ State.reset.reg 15 := by
  refine ⟨rfl, rfl, ?_, rfl, rfl, by decide⟩
  intro x y h
  rcases h with h | h | h | h | h <;> cases h
  decide

/-- W O46. -/
theorem test_witness_O46 :
    step (at0200 0x00EE) = .next { at0200 0x00EE with fault := some (.stackUnderflow 0x0200) } ∧
      (at0200 0x00EE).fault = none := by
  refine ⟨rfl, rfl⟩

/-- W O47: a run of no cycle and of one. -/
theorem test_witness_O47 :
    runCycles 0 State.reset = .next State.reset ∧
      runCycles 1 (at0200 0x6005) = .next { (at0200 0x6005).setReg 0 5 with pc := 0x0202 } := by
  refine ⟨rfl, rfl⟩

/-- W O48: a cycle that changes `DT`, and one that changes `ST`. -/
theorem test_witness_O48 :
    step ((at0200 0xF015).setReg 0 4) = .next { (at0200 0xF015).setReg 0 4 with dt := 4, pc := 0x0202 } ∧
      step ((at0200 0xF018).setReg 0 4) = .next { (at0200 0xF018).setReg 0 4 with st := 4, pc := 0x0202 } := by
  refine ⟨rfl, rfl⟩

/-- W O49: from a state that is not faulted, and from one that is. -/
theorem test_witness_O49 :
    (at0200 0x2206).Inv ∧ step (at0200 0x2206) = .next { at0200 0x2206 with sp := 1, pc := 0x0206 } ∧
    State.Inv { State.reset with fault := some (.stackUnderflow 0x0200) } := by
  refine ⟨⟨by decide, by decide, by decide⟩, rfl, ⟨by decide, by decide, by decide⟩⟩

/-- W O51, O54, O55, O56: the shortest ROM; the ends of the font and of the memory around a ROM of one word. -/
theorem test_witness_O51_O54_O55_O56 :
    boot [] = .next State.reset ∧ ([] : List Byte).length ≤ Config.memSize - 0x200 ∧
    boot [0x12, 0x00] = .next { State.reset with ram := [(0x200, 0x12)] } ∧
      (0 : Nat) < 16 ∧ (15 : Nat) < 16 ∧ (4 : Nat) < 5 ∧ 80 ≤ (80 : Nat) ∧ (0x1FF : Nat) < 0x200 ∧
      0x200 + [(0x12 : Byte), 0x00].length ≤ (0x202 : Nat) ∧ (0xFFF : Nat) < Config.memSize ∧
      Config.memSize ≤ (0x1000 : Nat) := by
  refine ⟨rfl, by decide, rfl, by decide⟩

/-- W O53: a place that is no byte of memory and not the count of draws. -/
theorem test_witness_O53 : (∀ a, Place.pc ≠ Place.ram a) ∧ Place.pc ≠ Place.draws := by
  refine ⟨fun a h => ?_, by decide⟩
  cases h

/-- W O56, O57: the longest ROM that fits, and the shortest that does not. -/
theorem test_witness_O56_O57 :
    (List.replicate 3584 (0 : Byte)).length ≤ Config.memSize - 0x200 ∧
      Config.memSize - 0x200 < (List.replicate 3585 (0 : Byte)).length := by
  rw [List.length_replicate, List.length_replicate]
  decide

/-- W O58. -/
theorem test_witness_O58 : endsSuccessfully (at0200 0x1200) = true := by decide

/-- W O59: the sums at the two sides of the bounds. -/
theorem test_witness_O59 :
    ((regs [(0, 0xFF)]).reg 0).toNat + (0x01 : Byte).toNat > 255 ∧
      ((regs [(0, 0xFF)]).reg 0).toNat + (0x00 : Byte).toNat ≤ 255 ∧
      { regs [(0, 0x01)] with i := 0xFFFF }.i.toNat + ((regs [(0, 0x01)]).reg 0).toNat > 65535 ∧
      { regs [(0, 0x01)] with i := 0xFFFE }.i.toNat + ((regs [(0, 0x01)]).reg 0).toNat ≤ 65535 := by decide

end Sys2Proof.Tests
end

/-! The encoding obligations (spec/30_encoding.md R64, R66; spec/40_cycle.md R84). -/

namespace Sys2Proof

open Sys2Proof.Machine

/-! The dispatcher's search, by the position of the row it finds. -/

/-- Each row of the opcode map builds an instruction of its own row number, whatever the fields. -/
theorem rowNumber_build {k : Nat} {r : Row} (hr : opcodeMap[k]? = some r) (f : Fields) :
    rowNumber (r.build f) = k := by
  have numbered : opcodeMap.map (fun r => rowNumber (r.build f)) = List.range 26 := rfl
  have hk : (List.range 26)[k]? = some (rowNumber (r.build f)) := by
    rw [← numbered, List.getElem?_map, hr, Option.map_some]
  obtain ⟨_, h⟩ := List.getElem?_eq_some_iff.1 hk
  rw [← h, List.getElem_range]

/-- The default row, the last of the map, accepts every word, so some row always does (R64). -/
theorem exists_row_accepts (f : Fields) : ∃ r ∈ opcodeMap, r.pattern.accepts f = true :=
  ⟨⟨⟨none, none, none, none⟩, fun f => .nop f.word⟩, by simp [opcodeMap], rfl⟩

/-- The first row that accepts the fields is the row of the dispatched instruction (R64, R85). -/
theorem findIdx?_accepts_eq_rowNumber (f : Fields) :
    opcodeMap.findIdx? (fun r => r.pattern.accepts f) = some (rowNumber (dispatch f)) := by
  obtain ⟨r, hr⟩ := Option.isSome_iff_exists.1 (List.find?_isSome.2 (exists_row_accepts f))
  have hdispatch : dispatch f = r.build f := by rw [dispatch, hr]
  rw [List.find?_eq_bind_findIdx?_getElem?] at hr
  obtain ⟨k, hk, hrow⟩ := Option.bind_eq_some_iff.1 hr
  rw [hk, hdispatch, rowNumber_build hrow]

/-- The columns copied from R66 are the masks and values of the map's patterns. -/
theorem maskMatch_eq_map : maskMatch = opcodeMap.map (fun r => (r.pattern.mask, r.pattern.value)) := rfl

/-- A pattern accepts the fields of `w` exactly when `w & mask = match`, as a test (R64). -/
theorem Pattern.accepts_ofWord (p : Pattern) (w : Word) :
    p.accepts (Fields.ofWord w) = (w &&& p.mask == p.value) := by
  rw [Bool.eq_iff_iff, Pattern.accepts_iff, Fields.word_ofWord, beq_iff_eq]

/-- Searching the two columns of R66 is searching the map. -/
theorem findIdx?_maskMatch (w : Word) :
    maskMatch.findIdx? (fun row => w &&& row.1 == row.2) =
      opcodeMap.findIdx? (fun r => r.pattern.accepts (Fields.ofWord w)) := by
  simp only [maskMatch_eq_map, List.findIdx?_map, Function.comp_def, Pattern.accepts_ofWord]

/-- The default row is the last of the table, and its empty mask matches every word. -/
theorem default_row_matches (w : Word) : ∃ row, maskMatch[25]? = some row ∧ w &&& row.1 = row.2 :=
  ⟨(0x0000, 0x0000), rfl, BitVec.and_zero⟩

/-! The nibbles of two bytes (R84). -/

theorem Fields.ofBytes_op_toNat (b0 b1 : Byte) : (Fields.ofBytes b0 b1).op.toNat = b0.toNat / 16 := by
  simp only [Fields.ofBytes, BitVec.extractLsb'_toNat, Nat.shiftRight_eq_div_pow]
  have := b0.isLt
  omega

theorem Fields.ofBytes_x_toNat (b0 b1 : Byte) : (Fields.ofBytes b0 b1).x.toNat = b0.toNat % 16 := by
  simp only [Fields.ofBytes, BitVec.extractLsb'_toNat, Nat.shiftRight_zero, Nat.reducePow]

theorem Fields.ofBytes_y_toNat (b0 b1 : Byte) : (Fields.ofBytes b0 b1).y.toNat = b1.toNat / 16 :=
  Fields.ofBytes_op_toNat b1 b0

theorem Fields.ofBytes_n_toNat (b0 b1 : Byte) : (Fields.ofBytes b0 b1).n.toNat = b1.toNat % 16 :=
  Fields.ofBytes_x_toNat b1 b0

/-- The second byte is the byte immediate (R63, R84). -/
theorem Fields.ofBytes_kk (b0 b1 : Byte) : (Fields.ofBytes b0 b1).kk = b1 := by
  apply BitVec.eq_of_toNat_eq
  rw [Fields.kk_toNat, Fields.ofBytes_y_toNat, Fields.ofBytes_n_toNat]
  exact Nat.div_add_mod' _ 16

/-- Two bytes always decode, and the decoder leaves what follows them (R84). -/
theorem decode_cons_cons (b0 b1 : Byte) (rest : List Byte) :
    decode (b0 :: b1 :: rest) = .ok (decodeBytes b0 b1, rest) := rfl

/-- The model's rejection of fewer than two bytes (log 26). -/
theorem decode_of_length_lt_two : ∀ {bytes : List Byte}, bytes.length < 2 → decode bytes = .error .truncated
  | [], _ => rfl
  | [_], _ => rfl
  | _ :: _ :: _, h => absurd h (by simp)

/-- Settles O4: the search of the table is the dispatcher's own search, and the row it stops at builds an instruction
of that row. -/
theorem firstMatchingRowIsSelected : Obligations.FirstMatchingRowIsSelected := by
  intro w
  refine ⟨?_, default_row_matches w⟩
  rw [findIdx?_maskMatch, findIdx?_accepts_eq_rowNumber, decodeWord]

/-- Settles O7: each field by its value, then the decoder by the length of the byte string. -/
theorem decoderSplitsBytesIntoFields : Obligations.DecoderSplitsBytesIntoFields :=
  ⟨fun b0 b1 =>
    ⟨Fields.ofBytes_op_toNat b0 b1, Fields.ofBytes_x_toNat b0 b1, Fields.ofBytes_y_toNat b0 b1,
      Fields.ofBytes_n_toNat b0 b1, Fields.ofBytes_kk b0 b1, Fields.nnn_toNat _⟩,
    fun b0 b1 rest => ⟨_, decode_cons_cons b0 b1 rest⟩,
    fun _ => decode_of_length_lt_two⟩

end Sys2Proof

/-! The fetch of a cycle (spec/40_cycle.md R83, R90). -/

namespace Sys2Proof

/-- The big-endian word of two bytes by its value, `(b0 << 8) + b1` (R41, R83). -/
theorem ofNat_bytes_eq_append (b0 b1 : Byte) :
    BitVec.ofNat 16 (b0.toNat * 256 + b1.toNat) = b0 ++ b1 := by
  have hvalue : (b0 ++ b1).toNat = b0.toNat * 256 + b1.toNat := by
    rw [BitVec.toNat_append, ← Nat.shiftLeft_add_eq_or_of_lt b1.isLt, Nat.shiftLeft_eq]
  rw [← hvalue, BitVec.ofNat_toNat, BitVec.setWidth_eq]

namespace Machine

/-- A read below `MEM_SIZE` answers the byte there (R45). -/
theorem Memory.read_of_lt {m : Memory} {a : Nat} (h : a < Config.memSize) :
    Memory.read m a = some (Memory.byteAt m a) :=
  if_pos ((backed_iff a).2 h)

/-- A fetch that answers has read both of its bytes from memory. -/
theorem State.fetch_reads {s : State} {b0 b1 : Byte} (h : s.fetch = some (b0, b1)) :
    Memory.read s.ram s.pc.toNat = some b0 ∧ Memory.read s.ram (s.pc.toNat + 1) = some b1 := by
  obtain ⟨hbound, rfl, rfl⟩ := State.fetch_eq_some.1 h
  exact ⟨Memory.read_of_lt (Nat.lt_of_succ_lt hbound), Memory.read_of_lt hbound⟩

/-- With nothing to fetch, a core that is not faulted takes the fetch fault (R83). -/
theorem step_of_fetch_none {s : State} (hf : s.fault = none) (h : s.fetch = none) :
    step s = raise .fetchOutOfBounds s := by
  simp only [step, hf, h]

/-- With two bytes fetched, a core that is not faulted runs the instruction of their word (R90). -/
theorem step_of_fetch_some {s : State} {b0 b1 : Byte} (hf : s.fault = none) (h : s.fetch = some (b0, b1)) :
    step s = exec (decodeWord (b0 ++ b1)) s := by
  simp only [step, hf, h, decodeBytes_eq]

end Machine

open Sys2Proof.Machine

/-- Settles O9: the two sides of the fetch's bound are the two answers of the fetch, and each answer has its step. -/
theorem fetchReadsTwoBytesOrFaults : Obligations.FetchReadsTwoBytesOrFaults := by
  intro s hf
  constructor
  · intro houtside
    exact (step_of_fetch_none hf (State.fetch_eq_none.2 houtside)).trans (raise_eq_next.2 rfl)
  · intro hinside
    have hfetch := State.fetch_eq_some.2 ⟨hinside, rfl, rfl⟩
    obtain ⟨hread0, hread1⟩ := State.fetch_reads hfetch
    refine ⟨_, _, hread0, hread1, ?_⟩
    rw [ofNat_bytes_eq_append, step_of_fetch_some hf hfetch]

end Sys2Proof

/-! The unconditional jumps (spec/41_control_flow.md R101, R103). -/

namespace Sys2Proof

/-- A word given by its value decodes to what the dispatcher answers for its fields (R61, R85). -/
theorem decodeWord_ofNat {f : Fields} {w : Nat} (h : f.word.toNat = w) :
    decodeWord (BitVec.ofNat 16 w) = dispatch f := by
  rw [← h, BitVec.ofNat_toNat, BitVec.setWidth_eq, decodeWord_word]

/-- The dispatcher stops at the row of opcode 1: every row before it wants another opcode (R66). -/
theorem dispatch_fieldsA_jpAddr (nnn : Addr) : dispatch (fieldsA 0x1 nnn) = .jpAddr nnn :=
  congrArg Instr.jpAddr (fieldsA_nnn 0x1 nnn)

/-- The dispatcher stops at the row of opcode B: every row before it wants another opcode (R66). -/
theorem dispatch_fieldsA_jpV0Addr (nnn : Addr) : dispatch (fieldsA 0xB nnn) = .jpV0Addr nnn :=
  congrArg Instr.jpV0Addr (fieldsA_nnn 0xB nnn)

namespace Machine

theorem zextAddr_toNat (a : Addr) : (zextAddr a).toNat = a.toNat :=
  BitVec.toNat_setWidth_of_le (by decide)

theorem zextByte_toNat (b : Byte) : (zextByte b).toNat = b.toNat :=
  BitVec.toNat_setWidth_of_le (by decide)

/-- The sum of a 12-bit address and a byte is at most 0x10FE, so the 16-bit addition does not wrap (R103). -/
theorem offsetTarget_toNat (nnn : Addr) (v0 : Byte) :
    (offsetTarget nnn v0).toNat = nnn.toNat + v0.toNat := by
  have haddr : nnn.toNat < 4096 := nnn.isLt
  have hbyte : v0.toNat < 256 := v0.isLt
  rw [offsetTarget, BitVec.toNat_add, zextAddr_toNat, zextByte_toNat]
  exact Nat.mod_eq_of_lt (by omega)

theorem State.setPc_self (s : State) : s.setPc s.pc = s := rfl

/-- A jump to the address `pc` holds is a fixed point (R101). -/
theorem State.setPc_zextAddr_of_eq {s : State} {nnn : Addr} (h : s.pc.toNat = nnn.toNat) :
    s.setPc (zextAddr nnn) = s := by
  have htarget : zextAddr nnn = s.pc := BitVec.eq_of_toNat_eq ((zextAddr_toNat nnn).trans h.symm)
  rw [htarget, State.setPc_self]

/-- A write of `pc` leaves every other place alone. -/
theorem writesOnly_setPc (s : State) (a : Word) : writesOnly [.pc] s (s.setPc a) := by
  intro p hp
  cases p with
  | pc => exact absurd (List.mem_singleton.2 rfl) hp
  | _ => rfl

theorem exec_jpAddr (nnn : Addr) (s : State) : exec (.jpAddr nnn) s = .next (s.setPc (zextAddr nnn)) := rfl

theorem exec_jpV0Addr (nnn : Addr) (s : State) :
    exec (.jpV0Addr nnn) s = .next (s.setPc (offsetTarget nnn (s.reg 0))) := rfl

end Machine

open Sys2Proof.Machine

/-- Settles O15: the word by its value, then the one write of `pc` and what it leaves. -/
theorem jpSetsPcToTheAddress : Obligations.JpSetsPcToTheAddress := by
  intro nnn s
  refine ⟨?_, s.setPc (zextAddr nnn), exec_jpAddr nnn s, zextAddr_toNat nnn, writesOnly_setPc s _,
    State.setPc_zextAddr_of_eq⟩
  exact (decodeWord_ofNat (fieldsA_word 0x1 nnn)).trans (dispatch_fieldsA_jpAddr nnn)

/-- Settles O18: as `JP addr`, with a target that the sum of address and offset always fits. -/
theorem jpV0AddsTheOffset : Obligations.JpV0AddsTheOffset := by
  intro nnn s
  refine ⟨?_, s.setPc (offsetTarget nnn (s.reg 0)), exec_jpV0Addr nnn s, offsetTarget_toNat nnn _,
    writesOnly_setPc s _⟩
  exact (decodeWord_ofNat (fieldsA_word 0xB nnn)).trans (dispatch_fieldsA_jpV0Addr nnn)

end Sys2Proof

/-! The conditional skips (spec/42_skips.md R110 to R113). -/

namespace Sys2Proof

/-- The dispatcher stops at the row of opcode 3: every row before it wants another opcode (R66). -/
theorem dispatch_fieldsI_seVxByte (x : Reg) (kk : Byte) : dispatch (fieldsI 0x3 x kk) = .seVxByte x kk :=
  congrArg (Instr.seVxByte x) (fieldsI_kk 0x3 x kk)

/-- The dispatcher stops at the row of opcode 4: every row before it wants another opcode (R66). -/
theorem dispatch_fieldsI_sneVxByte (x : Reg) (kk : Byte) : dispatch (fieldsI 0x4 x kk) = .sneVxByte x kk :=
  congrArg (Instr.sneVxByte x) (fieldsI_kk 0x4 x kk)

theorem dispatch_fieldsR_seVxVy (x y : Reg) : dispatch (fieldsR 0x5 x y 0x0) = .seVxVy x y := rfl

theorem dispatch_fieldsR_sneVxVy (x y : Reg) : dispatch (fieldsR 0x9 x y 0x0) = .sneVxVy x y := rfl

/-- Opcodes 5 and 9 have one row each, which wants the last field 0 (R66); with any other last field only the default
row is left (R112, R113). -/
theorem dispatch_fieldsR_nop {op n : Nibble} (hop : op = 0x5 ∨ op = 0x9) (x y : Reg) (hn : n ≠ 0x0) :
    dispatch (fieldsR op x y n) = .nop (fieldsR op x y n).word := by
  have hlast : (n == 0#4) = false := beq_false_of_ne hn
  rcases hop with rfl | rfl <;>
    simp [dispatch, opcodeMap, rowZ, rowA, rowI, rowR, rowF, Pattern.accepts, nibbleAccepted,
      fieldsR, hlast]

/-- The words `5xyn` and `9xyn` with `n` from 1 to 15 are default no-operations (R112, R113). -/
theorem decodeWord_nop_of_last_digit {op : Nibble} (hop : op = 0x5 ∨ op = 0x9) (x y : Reg) {n : Nat}
    (hpos : 0 < n) (hlt : n < 16) :
    decodeWord (BitVec.ofNat 16 (op.toNat * 4096 + x.val * 256 + y.val * 16 + n)) =
      .nop (BitVec.ofNat 16 (op.toNat * 4096 + x.val * 256 + y.val * 16 + n)) := by
  have hdigit : (BitVec.ofNat 4 n).toNat = n := Nat.mod_eq_of_lt hlt
  have hn : BitVec.ofNat 4 n ≠ 0x0 := fun h => hpos.ne' (hdigit.symm.trans (congrArg BitVec.toNat h))
  have hword := ofNat_eq_word (fieldsR op x y (BitVec.ofNat 4 n)) (op.toNat * 4096 + x.val * 256 + y.val * 16 + n)
    (congrArg (op.toNat * 4096 + x.val * 256 + y.val * 16 + ·) hdigit.symm)
  rw [hword, decodeWord_word, dispatch_fieldsR_nop hop x y hn]

namespace Machine

/-- The targets of `Skip` and `Next` differ, the wrap modulo 65536 included (R88). -/
theorem NextPc.target_skip_ne_next (pc : Word) : NextPc.target .skip pc ≠ NextPc.target .next pc := by
  simp [NextPc.target]

/-- The `pc` after a conditional skip is that of `Skip` exactly when the condition holds. -/
theorem NextPc.target_skipIf_eq_skip {c : Bool} {pc : Word} :
    (NextPc.skipIf c).target pc = NextPc.target .skip pc ↔ c = true := by
  cases c with
  | true => exact iff_of_true rfl rfl
  | false => exact iff_of_false (NextPc.target_skip_ne_next pc).symm Bool.false_ne_true

/-- The `pc` after a conditional skip is that of `Next` exactly when the condition fails. -/
theorem NextPc.target_skipIf_eq_next {c : Bool} {pc : Word} :
    (NextPc.skipIf c).target pc = NextPc.target .next pc ↔ c = false := by
  cases c with
  | true => exact iff_of_false (NextPc.target_skip_ne_next pc) (by decide)
  | false => exact iff_of_true rfl rfl

theorem exec_seVxByte (x : Reg) (kk : Byte) (s : State) :
    exec (.seVxByte x kk) s = .next (s.setPc ((NextPc.skipIf (s.reg x == kk)).target s.pc)) := rfl

theorem exec_sneVxByte (x : Reg) (kk : Byte) (s : State) :
    exec (.sneVxByte x kk) s = .next (s.setPc ((NextPc.skipIf (s.reg x != kk)).target s.pc)) := rfl

theorem exec_seVxVy (x y : Reg) (s : State) :
    exec (.seVxVy x y) s = .next (s.setPc ((NextPc.skipIf (s.reg x == s.reg y)).target s.pc)) := rfl

theorem exec_sneVxVy (x y : Reg) (s : State) :
    exec (.sneVxVy x y) s = .next (s.setPc ((NextPc.skipIf (s.reg x != s.reg y)).target s.pc)) := rfl

/-- The directive of an equality skip, by the two operands (R110, R112). -/
theorem NextPc.target_skipIf_beq (a b : Byte) (pc : Word) :
    (a = b → (NextPc.skipIf (a == b)).target pc = NextPc.target .skip pc) ∧
      (a ≠ b → (NextPc.skipIf (a == b)).target pc = NextPc.target .next pc) :=
  ⟨fun h => NextPc.target_skipIf_eq_skip.2 (beq_iff_eq.2 h),
    fun h => NextPc.target_skipIf_eq_next.2 (beq_false_of_ne h)⟩

/-- The directive of a difference skip, by the two operands (R111, R113). -/
theorem NextPc.target_skipIf_bne (a b : Byte) (pc : Word) :
    (a ≠ b → (NextPc.skipIf (a != b)).target pc = NextPc.target .skip pc) ∧
      (a = b → (NextPc.skipIf (a != b)).target pc = NextPc.target .next pc) :=
  ⟨fun h => NextPc.target_skipIf_eq_skip.2 (bne_iff_ne.2 h),
    fun h => NextPc.target_skipIf_eq_next.2 (bne_eq_false_iff_eq.2 h)⟩

/-- On the same operands a difference skip skips exactly when an equality skip goes to the next instruction (R111). -/
theorem NextPc.target_skipIf_bne_iff_beq (a b : Byte) (pc : Word) :
    (NextPc.skipIf (a != b)).target pc = NextPc.target .skip pc ↔
      (NextPc.skipIf (a == b)).target pc = NextPc.target .next pc := by
  rw [NextPc.target_skipIf_eq_skip, NextPc.target_skipIf_eq_next, bne, Bool.not_eq_true']

end Machine

open Sys2Proof.Machine

/-- Settles O19: the word by its value, then the one write of `pc` by the two outcomes of the comparison. -/
theorem seByteSkipsOnEqual : Obligations.SeByteSkipsOnEqual := by
  intro x kk s
  obtain ⟨hskip, hnext⟩ := NextPc.target_skipIf_beq (s.reg x) kk s.pc
  refine ⟨?_, _, exec_seVxByte x kk s, writesOnly_setPc s _, hskip, hnext⟩
  exact (decodeWord_ofNat (fieldsI_word 0x3 x kk)).trans (dispatch_fieldsI_seVxByte x kk)

/-- Settles O20: as `SE Vx,byte` with the outcomes exchanged, and the two instructions side by side. -/
theorem sneByteSkipsOnDifferent : Obligations.SneByteSkipsOnDifferent := by
  intro x kk s
  obtain ⟨hskip, hnext⟩ := NextPc.target_skipIf_bne (s.reg x) kk s.pc
  refine ⟨?_, _, exec_sneVxByte x kk s, writesOnly_setPc s _, hskip, hnext, _, exec_seVxByte x kk s,
    NextPc.target_skipIf_bne_iff_beq (s.reg x) kk s.pc⟩
  exact (decodeWord_ofNat (fieldsI_word 0x4 x kk)).trans (dispatch_fieldsI_sneVxByte x kk)

/-- Settles O21: the words by their last digit, then the comparison of the two registers. -/
theorem seRegistersSkipsOnEqual : Obligations.SeRegistersSkipsOnEqual := by
  intro x y s
  obtain ⟨hskip, hnext⟩ := NextPc.target_skipIf_beq (s.reg x) (s.reg y) s.pc
  refine ⟨?_, fun _ => decodeWord_nop_of_last_digit (.inl rfl) x y, _, exec_seVxVy x y s,
    writesOnly_setPc s _, hskip, hnext⟩
  exact (decodeWord_ofNat (fieldsR_word 0x5 x y 0x0)).trans (dispatch_fieldsR_seVxVy x y)

/-- Settles O22: as `SE Vx,Vy` with the outcomes exchanged. -/
theorem sneRegistersSkipsOnDifferent : Obligations.SneRegistersSkipsOnDifferent := by
  intro x y s
  obtain ⟨hskip, hnext⟩ := NextPc.target_skipIf_bne (s.reg x) (s.reg y) s.pc
  refine ⟨?_, fun _ => decodeWord_nop_of_last_digit (.inr rfl) x y, _, exec_sneVxVy x y s,
    writesOnly_setPc s _, hskip, hnext⟩
  exact (decodeWord_ofNat (fieldsR_word 0x9 x y 0x0)).trans (dispatch_fieldsR_sneVxVy x y)

end Sys2Proof

/-! The load of an immediate (spec/43_immediate.md R120), and how the frames of two writes compose. -/

namespace Sys2Proof

/-- The dispatcher stops at the row of opcode 6, whose byte is its two low nibbles put together (R63, R66). -/
theorem dispatch_ldVxByte (x : Reg) (k1 k2 : Nibble) :
    dispatch ⟨0x6, nibbleOfReg x, k1, k2⟩ = .ldVxByte x (k1 ++ k2) := rfl

/-- The value of a word whose register and two low nibbles are given (R61). -/
theorem word_regNibbles_toNat (op : Nibble) (x : Reg) (k1 k2 : Nibble) :
    (Fields.word ⟨op, nibbleOfReg x, k1, k2⟩).toNat = op.toNat * 4096 + x.val * 256 + k1.toNat * 16 + k2.toNat :=
  Fields.word_toNat _

/-- The value of two nibbles put together, the first the more significant (R63). -/
theorem append_nibbles_toNat (k1 k2 : Nibble) : (k1 ++ k2).toNat = k1.toNat * 16 + k2.toNat :=
  Fields.kk_toNat ⟨0x0, 0x0, k1, k2⟩

namespace Machine

theorem Place.same_trans {p : Place} {s t u : State} (hst : p.same s t) (htu : p.same t u) : p.same s u := by
  cases p <;> exact Eq.trans htu hst

/-- Two changes one after the other write at most what each of them writes. -/
theorem writesOnly_trans {ps qs : List Place} {s t u : State} (hst : writesOnly ps s t) (htu : writesOnly qs t u) :
    writesOnly (ps ++ qs) s u := by
  intro p hp
  obtain ⟨hps, hqs⟩ := not_or.1 (mt List.mem_append.2 hp)
  exact Place.same_trans (hst p hps) (htu p hqs)

/-- A write of a register leaves every other place alone, the other registers included. -/
theorem writesOnly_setReg (s : State) (x : Reg) (b : Byte) : writesOnly [.v x] s (s.setReg x b) := by
  intro p hp
  cases p with
  | v y =>
    have hxy : x ≠ y := fun h => hp (List.mem_singleton.2 (congrArg Place.v h.symm))
    exact (s.reg_setReg x b y).trans (if_neg hxy)
  | _ => rfl

theorem State.reg_setReg_same (s : State) (x : Reg) (b : Byte) : (s.setReg x b).reg x = b :=
  (s.reg_setReg x b x).trans (if_pos rfl)

theorem exec_ldVxByte (x : Reg) (kk : Byte) (s : State) :
    exec (.ldVxByte x kk) s = .next ((s.setReg x kk).setPc (NextPc.target .next s.pc)) := rfl

end Machine

open Sys2Proof.Machine

/-- Settles O23: the word by its four nibbles, then the write of the register followed by that of `pc`. -/
theorem ldByteLoadsTheImmediate : Obligations.LdByteLoadsTheImmediate := by
  intro x k1 k2 s
  have hloaded := (congrArg BitVec.toNat (s.reg_setReg_same x (k1 ++ k2))).trans (append_nibbles_toNat k1 k2)
  refine ⟨?_, _, exec_ldVxByte x (k1 ++ k2) s, hloaded, rfl,
    writesOnly_trans (writesOnly_setReg s x _) (writesOnly_setPc _ _)⟩
  exact (decodeWord_ofNat (word_regNibbles_toNat 0x6 x k1 k2)).trans (dispatch_ldVxByte x k1 k2)

end Sys2Proof

/-! The register-register operations with a plain result, and the addition with a carry (spec/44_alu_register.md R130
to R134). -/

namespace Sys2Proof

/-- The word of a register-register operation by its value, the operation named by the last digit (R61, R66). -/
theorem decodeWord_opcode8 (x y : Reg) (n : Nibble) :
    decodeWord (BitVec.ofNat 16 (0x8000 + n.toNat + x.val * 256 + y.val * 16)) = dispatch (fieldsR 0x8 x y n) := by
  have hvalue : (fieldsR 0x8 x y n).word.toNat = 0x8000 + x.val * 256 + y.val * 16 + n.toNat := fieldsR_word 0x8 x y n
  exact decodeWord_ofNat (by omega)

theorem dispatch_fieldsR_ldVxVy (x y : Reg) : dispatch (fieldsR 0x8 x y 0x0) = .ldVxVy x y := rfl

theorem dispatch_fieldsR_orVxVy (x y : Reg) : dispatch (fieldsR 0x8 x y 0x1) = .orVxVy x y := rfl

theorem dispatch_fieldsR_andVxVy (x y : Reg) : dispatch (fieldsR 0x8 x y 0x2) = .andVxVy x y := rfl

theorem dispatch_fieldsR_xorVxVy (x y : Reg) : dispatch (fieldsR 0x8 x y 0x3) = .xorVxVy x y := rfl

theorem dispatch_fieldsR_addVxVy (x y : Reg) : dispatch (fieldsR 0x8 x y 0x4) = .addVxVy x y := rfl

namespace Machine

/-! A result without a flag. -/

theorem exec_ldVxVy (x y : Reg) (s : State) :
    exec (.ldVxVy x y) s = .next ((s.setReg x (s.reg y)).setPc (NextPc.target .next s.pc)) := rfl

theorem exec_orVxVy (x y : Reg) (s : State) :
    exec (.orVxVy x y) s = .next ((s.setReg x (s.reg x ||| s.reg y)).setPc (NextPc.target .next s.pc)) := rfl

theorem exec_andVxVy (x y : Reg) (s : State) :
    exec (.andVxVy x y) s = .next ((s.setReg x (s.reg x &&& s.reg y)).setPc (NextPc.target .next s.pc)) := rfl

theorem exec_xorVxVy (x y : Reg) (s : State) :
    exec (.xorVxVy x y) s = .next ((s.setReg x (s.reg x ^^^ s.reg y)).setPc (NextPc.target .next s.pc)) := rfl

/-- What a plain result leaves in the destination, whatever `pc` becomes. -/
theorem State.reg_setReg_setPc_same (s : State) (x : Reg) (b : Byte) (a : Word) :
    ((s.setReg x b).setPc a).reg x = b :=
  s.reg_setReg_same x b

theorem State.setReg_self (s : State) (x : Reg) : s.setReg x (s.reg x) = s :=
  congrArg (fun v => { s with v := v }) (Vector.set_getElem_self x.isLt)

/-- A plain result writes its destination and `pc`. -/
theorem writesOnly_setReg_setPc (s : State) (x : Reg) (b : Byte) (a : Word) :
    writesOnly [.v x, .pc] s ((s.setReg x b).setPc a) :=
  writesOnly_trans (writesOnly_setReg s x b) (writesOnly_setPc _ a)

/-- A plain result that the destination already held writes `pc` alone. -/
theorem writesOnly_setReg_setPc_of_eq {s : State} {x : Reg} {b : Byte} (h : b = s.reg x) (a : Word) :
    writesOnly [.pc] s ((s.setReg x b).setPc a) := by
  rw [h, State.setReg_self]
  exact writesOnly_setPc s a

/-! A flag and a result. -/

theorem writesOnly_refl (ps : List Place) (s : State) : writesOnly ps s s := by
  intro p _
  cases p <;> rfl

theorem writesOnly_writeFlag (s : State) (flag : Option Bool) : writesOnly [.v flagReg] s (s.writeFlag flag) := by
  cases flag with
  | none => exact writesOnly_refl _ s
  | some b => exact writesOnly_setReg s flagReg (flagByte b)

theorem writesOnly_writeResult (s : State) (x : Reg) (result : Option Byte) :
    writesOnly [.v x] s (s.writeResult x result) := by
  cases result with
  | none => exact writesOnly_refl _ s
  | some r => exact writesOnly_setReg s x r

/-- An ALU operation writes at most `VF`, its destination and `pc` (R26). -/
theorem writesOnly_writeBack_setPc (s : State) (x : Reg) (out : AluOut) (a : Word) :
    writesOnly [.v flagReg, .v x, .pc] s ((s.writeBack x out).setPc a) :=
  writesOnly_trans (writesOnly_writeFlag s out.flag)
    (writesOnly_trans (writesOnly_writeResult _ x out.result) (writesOnly_setPc _ a))

theorem flagByte_decide (p : Prop) [Decidable p] : flagByte (decide p) = if p then 1 else 0 := by
  by_cases h : p <;> simp [flagByte, h]

theorem aluAdd_flag (a b : Byte) : (aluAdd a b).flag = some (decide (a.toNat + b.toNat > 255)) := rfl

theorem aluAdd_result (a b : Byte) : (aluAdd a b).result = some (BitVec.ofNat 8 (a.toNat + b.toNat)) := rfl

theorem exec_addVxVy (x y : Reg) (s : State) :
    exec (.addVxVy x y) s =
      .next ((s.writeBack x (aluAdd (s.reg x) (s.reg y))).setPc (NextPc.target .next s.pc)) := rfl

end Machine

open Sys2Proof.Machine

/-- Settles O29: the result is written last, so it stands in `V[x]` for every `x`; the flag stands unless `x` is 15. -/
theorem addSetsCarryThenResult : Obligations.AddSetsCarryThenResult := by
  intro x y s
  refine ⟨(decodeWord_opcode8 x y 0x4).trans (dispatch_fieldsR_addVxVy x y), _, exec_addVxVy x y s, ?_, ?_, rfl,
    writesOnly_writeBack_setPc s x _ _⟩
  · rw [State.reg_setPc, s.reg_writeBack_result (aluAdd_result _ _)]
    exact BitVec.toNat_ofNat _ 8
  · intro hx
    have hcarry := s.reg_writeBack_flag (aluAdd_flag (s.reg x) (s.reg y)) (.inl hx)
    exact hcarry.trans (flagByte_decide _)

/-- Settles O25: the copy is a plain result, and a register copied to itself already held it. -/
theorem ldRegisterCopies : Obligations.LdRegisterCopies := by
  intro x y s
  refine ⟨(decodeWord_opcode8 x y 0x0).trans (dispatch_fieldsR_ldVxVy x y), _, exec_ldVxVy x y s,
    State.reg_setReg_setPc_same s x _ _, rfl, writesOnly_setReg_setPc s x _ _, ?_⟩
  rintro rfl
  exact writesOnly_setReg_setPc_of_eq rfl _

/-- Settles O26: the result bit by bit; the OR of a register with itself is what it held. -/
theorem orIsBitwise : Obligations.OrIsBitwise := by
  intro x y s
  refine ⟨(decodeWord_opcode8 x y 0x1).trans (dispatch_fieldsR_orVxVy x y), _, exec_orVxVy x y s, fun k => ?_, rfl,
    writesOnly_setReg_setPc s x _ _, ?_⟩
  · rw [State.reg_setReg_setPc_same, BitVec.getLsbD_or]
  · rintro rfl
    exact writesOnly_setReg_setPc_of_eq BitVec.or_self _

/-- Settles O27: the result bit by bit; the AND of a register with itself is what it held. -/
theorem andIsBitwise : Obligations.AndIsBitwise := by
  intro x y s
  refine ⟨(decodeWord_opcode8 x y 0x2).trans (dispatch_fieldsR_andVxVy x y), _, exec_andVxVy x y s, fun k => ?_, rfl,
    writesOnly_setReg_setPc s x _ _, ?_⟩
  · rw [State.reg_setReg_setPc_same, BitVec.getLsbD_and]
  · rintro rfl
    exact writesOnly_setReg_setPc_of_eq BitVec.and_self _

/-- Settles O28: the result bit by bit; the exclusive OR of a register with itself is 0. -/
theorem xorIsBitwise : Obligations.XorIsBitwise := by
  intro x y s
  refine ⟨(decodeWord_opcode8 x y 0x3).trans (dispatch_fieldsR_xorVxVy x y), _, exec_xorVxVy x y s, fun k => ?_, rfl,
    writesOnly_setReg_setPc s x _ _, ?_⟩
  · rw [State.reg_setReg_setPc_same, BitVec.getLsbD_xor]
  · rintro rfl
    exact (State.reg_setReg_setPc_same s x _ _).trans BitVec.xor_self

end Sys2Proof

/-! What an instruction can do, said once for all of them: the fault its handler raises, or the handler's writes
followed by its directive (spec/40_cycle.md R86 to R88; spec/60_exceptions.md R177). -/

namespace Sys2Proof

namespace Machine

/-! The directives of spec/40_cycle.md R87 as the handlers compute them. -/

theorem NextPc.skipIf_beq (a b : Byte) : NextPc.skipIf (a == b) = if a = b then .skip else .next := by
  simp only [NextPc.skipIf, beq_iff_eq]

theorem NextPc.skipIf_bne (a b : Byte) : NextPc.skipIf (a != b) = if a = b then .next else .skip := by
  simp only [NextPc.skipIf, bne_iff_ne, ite_not]

theorem zextAddr_eq_ofNat (nnn : Addr) : zextAddr nnn = BitVec.ofNat 16 nnn.toNat :=
  (BitVec.ofNat_toNat 16 nnn).symm

theorem offsetTarget_eq_ofNat (nnn : Addr) (v0 : Byte) :
    offsetTarget nnn v0 = BitVec.ofNat 16 (nnn.toNat + v0.toNat) := by
  rw [← offsetTarget_toNat, BitVec.ofNat_toNat, BitVec.setWidth_eq]

/-- The state after the writes of an instruction's handler, before the controller applies the directive (R86, R88). It
is what `exec` computes wherever the handler raises no fault (`exec_of_handlerFault_none`). -/
def handlerWrites : Instr → State → State
  | .ret, s => s.setSp (s.sp - 1)
  | .jpAddr _, s => s
  | .callAddr _, s => s.setSp (s.sp + 1)
  | .seVxByte _ _, s => s
  | .sneVxByte _ _, s => s
  | .seVxVy _ _, s => s
  | .ldVxByte x kk, s => s.setReg x kk
  | .addVxByte x kk, s => s.setReg x (BitVec.ofNat 8 ((s.reg x).toNat + kk.toNat))
  | .ldVxVy x y, s => s.setReg x (s.reg y)
  | .orVxVy x y, s => s.setReg x (s.reg x ||| s.reg y)
  | .andVxVy x y, s => s.setReg x (s.reg x &&& s.reg y)
  | .xorVxVy x y, s => s.setReg x (s.reg x ^^^ s.reg y)
  | .addVxVy x y, s => s.writeBack x (aluAdd (s.reg x) (s.reg y))
  | .subVxVy x y, s => s.writeBack x (aluSub (s.reg x) (s.reg y))
  | .shrVx x _, s => s.writeBack x (aluShr (s.reg x))
  | .subnVxVy x y, s => s.writeBack x (aluSub (s.reg y) (s.reg x))
  | .shlVx x _, s => s.writeBack x (aluShl (s.reg x))
  | .sneVxVy _ _, s => s
  | .ldIAddr nnn, s => s.setI (zextAddr nnn)
  | .jpV0Addr _, s => s
  | .rndVxByte x kk, s => (s.setReg x (kk &&& s.drawByte)).afterDraw
  | .ldVxDt x, s => s.setReg x s.dt
  | .ldDtVx x, s => s.setDt (s.reg x)
  | .ldStVx x, s => s.setSt (s.reg x)
  | .addIVx x, s => s.setI (BitVec.ofNat 16 (s.i.toNat + (s.reg x).toNat))
  | .nop _, s => s

/-- No handler writes `pc`; only the controller does (R88). -/
@[simp] theorem handlerWrites_pc (i : Instr) (s : State) : (handlerWrites i s).pc = s.pc := by
  cases i <;> simp [handlerWrites]

/-- A handler that raises no fault makes its writes and returns its directive (R86). -/
theorem exec_eq_complete {i : Instr} {s : State} (h : handlerFault i s = none) :
    exec i s = complete (directiveOf i s) (handlerWrites i s) := by
  cases i with
  | ret =>
    have hsp : s.sp ≠ 0 := by simpa [handlerFault] using h
    exact if_neg hsp
  | callAddr nnn =>
    have hsp : s.sp ≠ 15 := by simpa [handlerFault] using h
    rw [directiveOf, ← zextAddr_eq_ofNat]
    exact if_neg hsp
  | jpAddr nnn => rw [directiveOf, ← zextAddr_eq_ofNat]; rfl
  | jpV0Addr nnn => rw [directiveOf, ← offsetTarget_eq_ofNat]; rfl
  | seVxByte x kk => rw [directiveOf, ← NextPc.skipIf_beq]; rfl
  | sneVxByte x kk => rw [directiveOf, ← NextPc.skipIf_bne]; rfl
  | seVxVy x y => rw [directiveOf, ← NextPc.skipIf_beq]; rfl
  | sneVxVy x y => rw [directiveOf, ← NextPc.skipIf_bne]; rfl
  | _ => rfl

theorem exec_of_handlerFault_none {i : Instr} {s : State} (h : handlerFault i s = none) :
    exec i s = .next ((handlerWrites i s).setPc ((directiveOf i s).target s.pc)) := by
  rw [exec_eq_complete h, complete, handlerWrites_pc]

/-- A handler that raises a fault writes the fault register alone (R177). -/
theorem exec_of_handlerFault_some {i : Instr} {s : State} {f : Fault} (h : handlerFault i s = some f) :
    exec i s = .next { s with fault := some f } := by
  cases i with
  | ret =>
    obtain ⟨hsp, ⟨⟩⟩ := Option.ite_none_right_eq_some.1 h
    exact if_pos hsp
  | callAddr nnn =>
    obtain ⟨hsp, ⟨⟩⟩ := Option.ite_none_right_eq_some.1 h
    exact if_pos hsp
  | _ => cases h

/-- What an instruction can do: raise its handler's fault, or make the handler's writes and follow its directive. -/
theorem exec_cases {i : Instr} {s t : State} (h : exec i s = .next t) :
    (∃ f, handlerFault i s = some f ∧ t = { s with fault := some f }) ∨
    (handlerFault i s = none ∧ t = (handlerWrites i s).setPc ((directiveOf i s).target s.pc)) := by
  cases hf : handlerFault i s with
  | some f =>
    rw [exec_of_handlerFault_some hf, Host.Outcome.next.injEq] at h
    exact .inl ⟨f, rfl, h.symm⟩
  | none =>
    rw [exec_of_handlerFault_none hf, Host.Outcome.next.injEq] at h
    exact .inr ⟨rfl, h.symm⟩

/-! The frame of every instruction (spec/10_state.md R34). -/

theorem writesOnly_setI (s : State) (a : Word) : writesOnly [.i] s (s.setI a) := by
  intro p hp
  cases p with
  | i => exact absurd (List.mem_singleton.2 rfl) hp
  | _ => rfl

theorem writesOnly_setDt (s : State) (b : Byte) : writesOnly [.dt] s (s.setDt b) := by
  intro p hp
  cases p with
  | dt => exact absurd (List.mem_singleton.2 rfl) hp
  | _ => rfl

theorem writesOnly_setSt (s : State) (b : Byte) : writesOnly [.st] s (s.setSt b) := by
  intro p hp
  cases p with
  | st => exact absurd (List.mem_singleton.2 rfl) hp
  | _ => rfl

theorem writesOnly_setSp (s : State) (b : Byte) : writesOnly [.sp] s (s.setSp b) := by
  intro p hp
  cases p with
  | sp => exact absurd (List.mem_singleton.2 rfl) hp
  | _ => rfl

theorem writesOnly_afterDraw (s : State) : writesOnly [.draws] s s.afterDraw := by
  intro p hp
  cases p with
  | draws => exact absurd (List.mem_singleton.2 rfl) hp
  | _ => rfl

theorem writesOnly_fault (s : State) (f : Option Fault) : writesOnly [.fault] s { s with fault := f } := by
  intro p hp
  cases p with
  | fault => exact absurd (List.mem_singleton.2 rfl) hp
  | _ => rfl

/-- A handler's writes and that of `pc` stay inside the "writes" column of R34. The draw of `RND` is listed last there,
and commutes with the write of `pc`. -/
theorem writesOnly_handlerWrites_setPc (i : Instr) (s : State) (a : Word) :
    writesOnly (writeSet i) s ((handlerWrites i s).setPc a) := by
  cases i with
  | ret | callAddr _ => exact writesOnly_trans (writesOnly_setSp s _) (writesOnly_setPc _ a)
  | jpAddr _ | jpV0Addr _ | nop _ => exact writesOnly_setPc s a
  | seVxByte _ _ | sneVxByte _ _ | seVxVy _ _ | sneVxVy _ _ => exact writesOnly_setPc s a
  | ldVxByte x _ | addVxByte x _ | ldVxDt x => exact writesOnly_setReg_setPc s x _ a
  | ldVxVy x _ | orVxVy x _ | andVxVy x _ | xorVxVy x _ => exact writesOnly_setReg_setPc s x _ a
  | addVxVy x _ | subVxVy x _ | shrVx x _ | subnVxVy x _ | shlVx x _ =>
    exact writesOnly_writeBack_setPc s x _ a
  | ldIAddr _ | addIVx _ => exact writesOnly_trans (writesOnly_setI s _) (writesOnly_setPc _ a)
  | ldDtVx _ => exact writesOnly_trans (writesOnly_setDt s _) (writesOnly_setPc _ a)
  | ldStVx _ => exact writesOnly_trans (writesOnly_setSt s _) (writesOnly_setPc _ a)
  | rndVxByte x _ => exact writesOnly_trans (writesOnly_setReg_setPc s x _ a) (writesOnly_afterDraw _)

/-- An instruction leaves every place outside its "writes" column alone, but the fault register (R34, R177). -/
theorem exec_same_of_notMem_writeSet {i : Instr} {s t : State} {p : Place} (h : exec i s = .next t)
    (hp : p ∉ writeSet i) (hfault : p ≠ .fault) : p.same s t := by
  obtain ⟨f, -, rfl⟩ | ⟨-, rfl⟩ := exec_cases h
  · exact writesOnly_fault s (some f) p (mt List.mem_singleton.1 hfault)
  · exact writesOnly_handlerWrites_setPc i s _ p hp

end Machine

end Sys2Proof

/-! The index, random and timer-register instructions (spec/45_index_random_timer.md R150 to R154). -/

namespace Sys2Proof

/-- The dispatcher stops at the row of opcode A: every row before it wants another opcode (R66). -/
theorem dispatch_fieldsA_ldIAddr (nnn : Addr) : dispatch (fieldsA 0xA nnn) = .ldIAddr nnn :=
  congrArg Instr.ldIAddr (fieldsA_nnn 0xA nnn)

/-- The dispatcher stops at the row of opcode C: every row before it wants another opcode (R66). -/
theorem dispatch_fieldsI_rndVxByte (x : Reg) (kk : Byte) : dispatch (fieldsI 0xC x kk) = .rndVxByte x kk :=
  congrArg (Instr.rndVxByte x) (fieldsI_kk 0xC x kk)

/-- The word of an instruction of opcode F by its value, the operation named by the low byte (R61, R66). -/
theorem decodeWord_opcodeF (x : Reg) (y n : Nibble) :
    decodeWord (BitVec.ofNat 16 (0xF000 + (y.toNat * 16 + n.toNat) + x.val * 256)) = dispatch (fieldsF x y n) := by
  have hvalue : (fieldsF x y n).word.toNat = 0xF000 + x.val * 256 + y.toNat * 16 + n.toNat := fieldsF_word x y n
  exact decodeWord_ofNat (by omega)

theorem dispatch_fieldsF_ldVxDt (x : Reg) : dispatch (fieldsF x 0x0 0x7) = .ldVxDt x := rfl

theorem dispatch_fieldsF_ldDtVx (x : Reg) : dispatch (fieldsF x 0x1 0x5) = .ldDtVx x := rfl

theorem dispatch_fieldsF_ldStVx (x : Reg) : dispatch (fieldsF x 0x1 0x8) = .ldStVx x := rfl

namespace Machine

/-! The only writers of the count of draws and of `DT` (spec/10_state.md R34). -/

theorem eq_rndVxByte_of_draws_mem_writeSet {i : Instr} (h : .draws ∈ writeSet i) : ∃ x kk, i = .rndVxByte x kk := by
  cases i with
  | rndVxByte x kk => exact ⟨x, kk, rfl⟩
  | _ => simp [writeSet] at h

theorem eq_ldDtVx_of_dt_mem_writeSet {i : Instr} (h : .dt ∈ writeSet i) : ∃ x, i = .ldDtVx x := by
  cases i with
  | ldDtVx x => exact ⟨x, rfl⟩
  | _ => simp [writeSet] at h

/-- A masked byte has no bit outside the mask (R151). -/
theorem and_and_not_mask (kk b : Byte) : kk &&& b &&& ~~~kk = 0 := by
  rw [BitVec.and_comm kk b, BitVec.and_assoc, BitVec.and_not_self]
  exact BitVec.and_zero

/-! No instruction reads `ST` back: it takes no part in the fault, in the directive, or in what is written (R154). -/

theorem State.writeBack_setSt (s : State) (b : Byte) (x : Reg) (out : AluOut) :
    (s.setSt b).writeBack x out = (s.writeBack x out).setSt b := by
  rcases out with ⟨_ | _, _ | _⟩ <;> rfl

theorem handlerFault_setSt (i : Instr) (s : State) (b : Byte) : handlerFault i (s.setSt b) = handlerFault i s := by
  cases i <;> rfl

theorem directiveOf_setSt (i : Instr) (s : State) (b : Byte) : directiveOf i (s.setSt b) = directiveOf i s := by
  cases i <;> rfl

/-- From a state with another `ST` a handler writes the same: `LD ST,Vx` sets `ST` anew, every other keeps it. -/
theorem handlerWrites_setSt (i : Instr) (s : State) (b : Byte) :
    ∃ c, handlerWrites i (s.setSt b) = (handlerWrites i s).setSt c := by
  cases i with
  | ldStVx x => exact ⟨s.reg x, rfl⟩
  | addVxVy x _ | subVxVy x _ | shrVx x _ | subnVxVy x _ | shlVx x _ => exact ⟨b, s.writeBack_setSt b x _⟩
  | _ => exact ⟨b, rfl⟩

/-- From a state with another `ST` an instruction answers the same state, `ST` apart (R154). -/
theorem exec_setSt {i : Instr} {s t : State} (h : exec i s = .next t) (b : Byte) :
    ∃ c, exec i (s.setSt b) = .next (t.setSt c) := by
  obtain ⟨f, hf, rfl⟩ | ⟨hf, rfl⟩ := exec_cases h
  · exact ⟨b, exec_of_handlerFault_some ((handlerFault_setSt i s b).trans hf)⟩
  · obtain ⟨c, hc⟩ := handlerWrites_setSt i s b
    refine ⟨c, ?_⟩
    rw [exec_of_handlerFault_none ((handlerFault_setSt i s b).trans hf), hc, directiveOf_setSt]
    rfl

end Machine

open Sys2Proof.Machine

/-- Settles O36: the draw and its mask, then the frame of every other instruction, which does not list the draws. -/
theorem rndMasksOneFreshByte : Obligations.RndMasksOneFreshByte := by
  constructor
  · intro x kk s
    have hreg : (s.setReg x (kk &&& s.drawByte)).reg x = kk &&& s.drawByte := s.reg_setReg_same x _
    have hmask : (s.setReg x (kk &&& s.drawByte)).reg x &&& ~~~kk = 0 := by rw [hreg, and_and_not_mask]
    refine ⟨?_, _, exec_of_handlerFault_none rfl, hreg, hmask, rfl, rfl,
      writesOnly_handlerWrites_setPc (.rndVxByte x kk) s _⟩
    exact (decodeWord_ofNat (fieldsI_word 0xC x kk)).trans (dispatch_fieldsI_rndVxByte x kk)
  · intro i s t h hother
    refine exec_same_of_notMem_writeSet (p := .draws) h (fun hmem => ?_) (by simp)
    obtain ⟨x, kk, hi⟩ := eq_rndVxByte_of_draws_mem_writeSet hmem
    exact hother x kk hi

/-- Settles O37: the copy of `DT`, then the frame of every other instruction, which does not list `DT`. -/
theorem ldFromDelayReads : Obligations.LdFromDelayReads := by
  constructor
  · intro x s
    exact ⟨(decodeWord_opcodeF x 0x0 0x7).trans (dispatch_fieldsF_ldVxDt x), _, exec_of_handlerFault_none rfl,
      s.reg_setReg_same x s.dt, rfl, writesOnly_handlerWrites_setPc (.ldVxDt x) s _⟩
  · intro i s t h hother
    refine exec_same_of_notMem_writeSet (p := .dt) h (fun hmem => ?_) (by simp)
    obtain ⟨x, hi⟩ := eq_ldDtVx_of_dt_mem_writeSet hmem
    exact hother x hi

/-- Settles O39: the copy to `ST`, then two runs side by side, whose results differ by one write of `ST`. -/
theorem ldToSoundWrites : Obligations.LdToSoundWrites := by
  constructor
  · intro x s
    exact ⟨(decodeWord_opcodeF x 0x1 0x8).trans (dispatch_fieldsF_ldStVx x), _, exec_of_handlerFault_none rfl,
      rfl, rfl, writesOnly_handlerWrites_setPc (.ldStVx x) s _⟩
  · intro i s t u b ht hu
    obtain ⟨c, hc⟩ := exec_setSt ht b
    obtain rfl : t.setSt c = u := Host.Outcome.next.inj (hc.symm.trans hu)
    exact writesOnly_setSt t c

/-- Settles O35: the address zero-extended keeps its value, and `I` and `pc` alone are written. -/
theorem ldIndexLoadsTheAddress : Obligations.LdIndexLoadsTheAddress := by
  intro nnn s
  refine ⟨?_, _, exec_of_handlerFault_none rfl, zextAddr_toNat nnn, rfl,
    writesOnly_handlerWrites_setPc (.ldIAddr nnn) s _⟩
  exact (decodeWord_ofNat (fieldsA_word 0xA nnn)).trans (dispatch_fieldsA_ldIAddr nnn)

/-- Settles O38: `DT` holds the register, and `DT` and `pc` alone are written. -/
theorem ldToDelayWrites : Obligations.LdToDelayWrites := by
  intro x s
  exact ⟨(decodeWord_opcodeF x 0x1 0x5).trans (dispatch_fieldsF_ldDtVx x), _, exec_of_handlerFault_none rfl,
    rfl, rfl, writesOnly_handlerWrites_setPc (.ldDtVx x) s _⟩

end Sys2Proof

/-! The default no-operation (spec/46_default_nop.md R160). -/

namespace Sys2Proof

open Sys2Proof.Machine

/-- The dispatcher answers what a row of the map that accepts the fields builds (R64, R85). -/
theorem dispatch_eq_build (f : Fields) :
    ∃ (k : Nat) (r : Row), opcodeMap[k]? = some r ∧ r.pattern.accepts f = true ∧ dispatch f = r.build f := by
  obtain ⟨r, hr⟩ := Option.isSome_iff_exists.1 (List.find?_isSome.2 (exists_row_accepts f))
  obtain ⟨k, hk⟩ := List.mem_iff_getElem?.1 (List.mem_of_find?_eq_some hr)
  have haccepts := List.find?_some (p := fun r : Row => r.pattern.accepts f) hr
  exact ⟨k, r, hk, haccepts, by rw [dispatch, hr]⟩

/-- From position 25 on the map holds the default row alone, which builds the word's own no-operation. -/
theorem build_eq_nop {k : Nat} {r : Row} (hr : opcodeMap[k]? = some r) (hk : 25 ≤ k) (f : Fields) :
    r.build f = .nop f.word := by
  obtain ⟨hlt, -⟩ := List.getElem?_eq_some_iff.1 hr
  obtain rfl : k = 25 := Nat.le_antisymm (Nat.le_of_lt_succ hlt) hk
  obtain rfl := Option.some.inj hr
  rfl

/-- A word that matches no row before the default is the default no-operation: the row the dispatcher took accepts the
word, so it can only be the default row (R64, R160). -/
theorem decodeWord_eq_nop {w : Word}
    (h : ∀ k row, k < 25 → maskMatch[k]? = some row → w &&& row.1 ≠ row.2) : decodeWord w = .nop w := by
  obtain ⟨k, r, hr, haccepts, hbuild⟩ := dispatch_eq_build (Fields.ofWord w)
  have hrow : maskMatch[k]? = some (r.pattern.mask, r.pattern.value) := by
    rw [maskMatch_eq_map, List.getElem?_map, hr, Option.map_some]
  have hmatch : w &&& r.pattern.mask = r.pattern.value := by
    rwa [Pattern.accepts_ofWord, beq_iff_eq] at haccepts
  have hdefault : 25 ≤ k := Nat.le_of_not_lt fun hlt => h k _ hlt hrow hmatch
  rw [decodeWord, hbuild, build_eq_nop hr hdefault, Fields.word_ofWord]

/-- Settles O41: the decoder has only the default row left, whose handler writes nothing and advances `pc`. -/
theorem unlistedWordOnlyAdvances : Obligations.UnlistedWordOnlyAdvances := by
  intro w s h
  exact ⟨decodeWord_eq_nop h, _, exec_of_handlerFault_none rfl, rfl, writesOnly_handlerWrites_setPc (.nop w) s _⟩

end Sys2Proof

/-! Boot: the font at the start of memory and the copy of the ROM (spec/70_reset_and_hazards.md R193 to R195). -/

namespace Sys2Proof

namespace Machine

/-- A read answers a byte exactly when the address is backed and memory holds that byte there (R45). -/
theorem Memory.read_eq_some {m : Memory} {a : Nat} {b : Byte} :
    Memory.read m a = some b ↔ a < Config.memSize ∧ Memory.byteAt m a = b := by
  rw [Memory.read, Option.ite_none_right_eq_some, backed_iff, Option.some.injEq]

/-- A load leaves every address outside the loaded stretch alone. -/
theorem Memory.read_load_other {m : Memory} (hm : Memory.wf m = true) {a : Nat} {bytes : List Byte} {a' : Nat}
    (h : a' < a ∨ a + bytes.length ≤ a') : Memory.read (Memory.load m a bytes) a' = Memory.read m a' := by
  induction bytes generalizing m a with
  | nil => rfl
  | cons b rest ih =>
    rw [List.length_cons] at h
    rw [Memory.load, ih (Memory.write_wf a b hm) (by omega), Memory.read_write_other hm (by omega)]

/-- A load that stays in memory puts byte `j` at the `j`-th address from its start (R195): the writes after it are to
higher addresses. -/
theorem Memory.read_load {m : Memory} (hm : Memory.wf m = true) {a : Nat} {bytes : List Byte}
    (hfits : a + bytes.length ≤ Config.memSize) {j : Nat} (hj : j < bytes.length) :
    Memory.read (Memory.load m a bytes) (a + j) = some bytes[j] := by
  induction bytes generalizing m a j with
  | nil => exact absurd hj (Nat.not_lt_zero j)
  | cons b rest ih =>
    rw [List.length_cons] at hfits hj
    have hwrite := Memory.write_wf a b hm
    rw [Memory.load]
    cases j with
    | zero =>
      have hbacked : backed a = true := (backed_iff a).2 (by omega)
      exact (Memory.read_load_other hwrite (.inl (Nat.lt_add_one a))).trans (Memory.read_write_same hm hbacked b)
    | succ j =>
      have haddr : a + (j + 1) = a + 1 + j := by omega
      rw [haddr, List.getElem_cons_succ]
      exact ih hwrite (by omega) (Nat.lt_of_succ_lt_succ hj)

/-- With nothing loaded, memory starts with the font (R47, R194). -/
theorem State.read_reset_ram_font {a : Nat} (h : a < Config.fontSize) :
    Memory.read State.reset.ram a = some (Config.font a) := by
  have hbound : Config.fontSize ≤ Config.memSize := by decide
  exact Memory.read_eq_some.2 ⟨h.trans_le hbound, if_pos h⟩

/-- Two reads of memory that answer make the fetch (R82). -/
theorem State.fetch_of_reads {s : State} {b0 b1 : Byte} (h0 : Memory.read s.ram s.pc.toNat = some b0)
    (h1 : Memory.read s.ram (s.pc.toNat + 1) = some b1) : s.fetch = some (b0, b1) := by
  obtain ⟨-, hbyte0⟩ := Memory.read_eq_some.1 h0
  obtain ⟨hbound, hbyte1⟩ := Memory.read_eq_some.1 h1
  exact State.fetch_eq_some.2 ⟨hbound, hbyte0, hbyte1⟩

/-- A ROM fits exactly when it ends inside memory (R196). -/
theorem romFits_iff {rom : List Byte} : romFits rom = true ↔ rom.length ≤ Config.memSize - Config.romBase :=
  decide_eq_true_iff

theorem boot_of_romFits {rom : List Byte} (h : romFits rom = true) :
    boot rom = .next { State.reset with ram := Memory.load State.reset.ram Config.romBase rom } :=
  if_pos h

/-- A boot that answers a state was given a ROM that fits, and leaves reset with that ROM loaded (R193, R196). -/
theorem boot_eq_next {rom : List Byte} {s : State} :
    boot rom = .next s ↔
      romFits rom = true ∧ s = { State.reset with ram := Memory.load State.reset.ram Config.romBase rom } := by
  by_cases h : romFits rom = true
  · rw [boot_of_romFits h, Host.Outcome.next.injEq, and_iff_right h]
    exact eq_comm
  · simp [boot, h]

/-- Boot leaves every address outside the ROM as reset left it. -/
theorem read_ram_of_boot {rom : List Byte} {s : State} (h : boot rom = .next s) {a : Nat}
    (ha : a < Config.romBase ∨ Config.romBase + rom.length ≤ a) :
    Memory.read s.ram a = Memory.read State.reset.ram a := by
  obtain ⟨-, rfl⟩ := boot_eq_next.1 h
  exact Memory.read_load_other State.reset_ram_wf ha

/-- Boot puts byte `j` of the ROM at `0x200 + j` (R195). -/
theorem read_ram_of_boot_rom {rom : List Byte} {s : State} (h : boot rom = .next s) {j : Nat}
    (hj : j < rom.length) : Memory.read s.ram (Config.romBase + j) = some rom[j] := by
  obtain ⟨hfits, rfl⟩ := boot_eq_next.1 h
  have hbase : Config.romBase ≤ Config.memSize := by decide
  have hlength := romFits_iff.1 hfits
  exact Memory.read_load State.reset_ram_wf (by omega) hj

theorem pc_of_boot {rom : List Byte} {s : State} (h : boot rom = .next s) : s.pc.toNat = Config.romBase := by
  obtain ⟨-, rfl⟩ := boot_eq_next.1 h
  rfl

/-- The first fetch after boot is that of the ROM's first two bytes (R195). -/
theorem fetch_of_boot {b0 b1 : Byte} {rest : List Byte} {s : State} (h : boot (b0 :: b1 :: rest) = .next s) :
    s.fetch = some (b0, b1) := by
  have hread0 := read_ram_of_boot_rom h (j := 0) (by simp)
  have hread1 := read_ram_of_boot_rom h (j := 1) (by simp)
  rw [← pc_of_boot h] at hread0 hread1
  exact State.fetch_of_reads hread0 hread1

end Machine

open Sys2Proof.Machine

/-- Settles O54: the font's addresses read as the font at reset, and lie below the ROM, so boot leaves them alone. -/
theorem fontStandsAtTheStartOfMemory : Obligations.FontStandsAtTheStartOfMemory := by
  intro k j hk hj
  have hfont : 5 * k + j < 80 := by omega
  have hreset := State.read_reset_ram_font hfont
  refine ⟨hreset, fun rom s hboot => ?_⟩
  have hbelow : 5 * k + j < 0x200 := by omega
  exact (read_ram_of_boot hboot (.inl hbelow)).trans hreset

/-- Settles O56: the state boot answers, read inside the ROM, outside it, and at `pc`. -/
theorem bootCopiesTheRom : Obligations.BootCopiesTheRom := by
  intro rom hlength
  have hboot := boot_of_romFits (romFits_iff.2 hlength)
  refine ⟨_, hboot, fun j hj => read_ram_of_boot_rom hboot hj, fun a ha => read_ram_of_boot hboot ha, ?_, rfl⟩
  rintro b0 b1 rest rfl
  exact fetch_of_boot hboot

end Sys2Proof

/-! Decoding and encoding are inverse to each other (spec/30_encoding.md R60, R66, R68, R72). -/

namespace Sys2Proof

open Sys2Proof.Machine

/-! The dispatcher on the fields the encoder gives: it stops at the instruction's own row (R66). -/

theorem dispatch_fieldsA_callAddr (nnn : Addr) : dispatch (fieldsA 0x2 nnn) = .callAddr nnn :=
  congrArg Instr.callAddr (fieldsA_nnn 0x2 nnn)

theorem dispatch_fieldsI_ldVxByte (x : Reg) (kk : Byte) : dispatch (fieldsI 0x6 x kk) = .ldVxByte x kk :=
  congrArg (Instr.ldVxByte x) (fieldsI_kk 0x6 x kk)

theorem dispatch_fieldsI_addVxByte (x : Reg) (kk : Byte) : dispatch (fieldsI 0x7 x kk) = .addVxByte x kk :=
  congrArg (Instr.addVxByte x) (fieldsI_kk 0x7 x kk)

/-- Every word is taken by a row before the default one, or is one of the words R68 lists. By the opcode; opcodes 0, 5,
8, 9 and F are the ones whose other fields matter, and of these only 8 has rows enough to go through its last digits. -/
theorem isDefaultFields_eq_not_any (f : Fields) :
    isDefaultFields f = !(opcodeMap.take 25).any (fun r => r.pattern.accepts f) := by
  obtain ⟨op, x, y, n⟩ := f
  by_cases halu : op = 0x8
  · subst halu
    rcases nibble_cases n with rfl | rfl | rfl | rfl | rfl | rfl | rfl | rfl |
      rfl | rfl | rfl | rfl | rfl | rfl | rfl | rfl <;>
    rfl
  · rcases nibble_cases op with rfl | rfl | rfl | rfl | rfl | rfl | rfl | rfl |
      rfl | rfl | rfl | rfl | rfl | rfl | rfl | rfl <;>
      simp [isDefaultFields, opcodeMap, rowZ, rowA, rowI, rowR, rowF, Pattern.accepts, nibbleAccepted,
        bne, Bool.and_assoc] at halu ⊢

/-- What the dispatcher can do: take a row before the default one that accepts the fields, or, for the words of R68
alone, the default row. -/
theorem dispatch_cases (f : Fields) :
    (∃ r ∈ opcodeMap.take 25, r.pattern.accepts f = true ∧ dispatch f = r.build f) ∨
    (isDefaultFields f = true ∧ dispatch f = .nop f.word) := by
  have hsplit : opcodeMap = opcodeMap.take 25 ++ [⟨⟨none, none, none, none⟩, fun f => .nop f.word⟩] := rfl
  cases hr : (opcodeMap.take 25).find? (fun r => r.pattern.accepts f) with
  | some r =>
    refine .inl ⟨r, List.mem_of_find?_eq_some hr, List.find?_some (p := fun r : Row => r.pattern.accepts f) hr, ?_⟩
    rw [dispatch, hsplit, List.find?_append, hr, Option.some_or]
  | none =>
    refine .inr ⟨?_, ?_⟩
    · rw [isDefaultFields_eq_not_any, List.any_eq_false.2 (List.find?_eq_none.1 hr), Bool.not_false]
    · rw [dispatch, hsplit, List.find?_append, hr]
      rfl

/-- The words of R68 go to the default row, for no other row accepts them. -/
theorem dispatch_of_isDefaultFields {f : Fields} (h : isDefaultFields f = true) : dispatch f = .nop f.word := by
  obtain ⟨r, hr, haccepts, -⟩ | ⟨-, hnop⟩ := dispatch_cases f
  · rw [isDefaultFields_eq_not_any, List.any_eq_true.2 ⟨r, hr, haccepts⟩] at h
    exact absurd h (by decide)
  · exact hnop

theorem decodeWord_of_isDefaultWord {w : Word} (h : isDefaultWord w = true) : decodeWord w = .nop w := by
  rw [← Fields.word_ofWord w] at h ⊢
  rw [isDefaultWord_word] at h
  rw [decodeWord_word, dispatch_of_isDefaultFields h]

/-! From an instruction to its word and back. -/

/-- The dispatcher undoes the encoder on every well-formed instruction (R66, R72). -/
theorem dispatch_encodeFields {i : Instr} (h : i.wf = true) : dispatch (encodeFields i) = i := by
  cases i with
  | jpAddr nnn => exact dispatch_fieldsA_jpAddr nnn
  | callAddr nnn => exact dispatch_fieldsA_callAddr nnn
  | ldIAddr nnn => exact dispatch_fieldsA_ldIAddr nnn
  | jpV0Addr nnn => exact dispatch_fieldsA_jpV0Addr nnn
  | seVxByte x kk => exact dispatch_fieldsI_seVxByte x kk
  | sneVxByte x kk => exact dispatch_fieldsI_sneVxByte x kk
  | ldVxByte x kk => exact dispatch_fieldsI_ldVxByte x kk
  | addVxByte x kk => exact dispatch_fieldsI_addVxByte x kk
  | rndVxByte x kk => exact dispatch_fieldsI_rndVxByte x kk
  | nop w => exact decodeWord_of_isDefaultWord h
  | _ => rfl

theorem decodeWord_encodeWord {i : Instr} (h : i.wf = true) : decodeWord (encodeWord i) = i := by
  rw [encodeWord, decodeWord_word, dispatch_encodeFields h]

/-! From a word to its instruction and back. -/

/-- A row gives the fields it accepts to a well-formed instruction that the encoder gives the same fields. -/
def Row.Faithful (r : Row) : Prop :=
  ∀ f, r.pattern.accepts f = true → (r.build f).wf = true ∧ encodeFields (r.build f) = f

/-- A pattern accepts the fields that carry its digits. -/
theorem Pattern.accepts_iff_fields (p : Pattern) (f : Fields) :
    p.accepts f = true ↔ (∀ c ∈ p.op, f.op = c) ∧ (∀ c ∈ p.x, f.x = c) ∧ (∀ c ∈ p.y, f.y = c) ∧ ∀ c ∈ p.n, f.n = c := by
  have hpart : ∀ (d : Option Nibble) (v : Nibble), nibbleAccepted d v = true ↔ ∀ c ∈ d, v = c := by
    intro d v
    cases d <;> simp [nibbleAccepted]
  simp only [Pattern.accepts, Bool.and_eq_true, hpart, and_assoc]

theorem rowA_faithful {op : Nibble} {i : Addr → Instr}
    (h : ∀ nnn, (i nnn).wf = true ∧ encodeFields (i nnn) = fieldsA op nnn) : (rowA op i).Faithful := by
  intro f hf
  obtain rfl : f.op = op := ((Pattern.accepts_iff_fields _ f).1 hf).1 op rfl
  exact ⟨(h _).1, (h _).2.trans (fieldsA_of_nnn f)⟩

theorem rowI_faithful {op : Nibble} {i : Reg → Byte → Instr}
    (h : ∀ x kk, (i x kk).wf = true ∧ encodeFields (i x kk) = fieldsI op x kk) : (rowI op i).Faithful := by
  intro f hf
  obtain rfl : f.op = op := ((Pattern.accepts_iff_fields _ f).1 hf).1 op rfl
  exact ⟨(h _ _).1, (h _ _).2.trans (fieldsI_of_kk f)⟩

theorem rowR_faithful {op n : Nibble} {i : Reg → Reg → Instr}
    (h : ∀ x y, (i x y).wf = true ∧ encodeFields (i x y) = fieldsR op x y n) : (rowR op n i).Faithful := by
  intro f hf
  obtain ⟨hop, -, -, hn⟩ := (Pattern.accepts_iff_fields _ f).1 hf
  obtain rfl : f.op = op := hop op rfl
  obtain rfl : f.n = n := hn n rfl
  exact ⟨(h _ _).1, (h _ _).2.trans (fieldsR_of_xy f)⟩

theorem rowF_faithful {y n : Nibble} {i : Reg → Instr}
    (h : ∀ x, (i x).wf = true ∧ encodeFields (i x) = fieldsF x y n) : (rowF y n i).Faithful := by
  intro f hf
  obtain ⟨hop, -, hy, hn⟩ := (Pattern.accepts_iff_fields _ f).1 hf
  obtain rfl : f.y = y := hy y rfl
  obtain rfl : f.n = n := hn n rfl
  exact ⟨(h _).1, (h _).2.trans (fieldsF_of_x f (hop 0xF rfl))⟩

theorem rowZ_faithful {op x y n : Nibble} {i : Instr} (hwf : i.wf = true) (h : encodeFields i = ⟨op, x, y, n⟩) :
    (rowZ op x y n i).Faithful := by
  intro f hf
  obtain ⟨hop, hx, hy, hn⟩ := (Pattern.accepts_iff_fields _ f).1 hf
  obtain rfl : f.op = op := hop op rfl
  obtain rfl : f.x = x := hx x rfl
  obtain rfl : f.y = y := hy y rfl
  obtain rfl : f.n = n := hn n rfl
  exact ⟨hwf, h⟩

/-- Every row before the default one is faithful, by its format (R62, R66). -/
theorem faithful_of_mem_take : ∀ r ∈ opcodeMap.take 25, r.Faithful := by
  refine List.forall_iff_forall_mem.1 (show List.Forall Row.Faithful (opcodeMap.take 25) from ?_)
  exact ⟨rowZ_faithful rfl rfl, rowA_faithful fun _ => ⟨rfl, rfl⟩, rowA_faithful fun _ => ⟨rfl, rfl⟩,
    rowI_faithful fun _ _ => ⟨rfl, rfl⟩, rowI_faithful fun _ _ => ⟨rfl, rfl⟩, rowR_faithful fun _ _ => ⟨rfl, rfl⟩,
    rowI_faithful fun _ _ => ⟨rfl, rfl⟩, rowI_faithful fun _ _ => ⟨rfl, rfl⟩, rowR_faithful fun _ _ => ⟨rfl, rfl⟩,
    rowR_faithful fun _ _ => ⟨rfl, rfl⟩, rowR_faithful fun _ _ => ⟨rfl, rfl⟩, rowR_faithful fun _ _ => ⟨rfl, rfl⟩,
    rowR_faithful fun _ _ => ⟨rfl, rfl⟩, rowR_faithful fun _ _ => ⟨rfl, rfl⟩, rowR_faithful fun _ _ => ⟨rfl, rfl⟩,
    rowR_faithful fun _ _ => ⟨rfl, rfl⟩, rowR_faithful fun _ _ => ⟨rfl, rfl⟩, rowR_faithful fun _ _ => ⟨rfl, rfl⟩,
    rowA_faithful fun _ => ⟨rfl, rfl⟩, rowA_faithful fun _ => ⟨rfl, rfl⟩, rowI_faithful fun _ _ => ⟨rfl, rfl⟩,
    rowF_faithful fun _ => ⟨rfl, rfl⟩, rowF_faithful fun _ => ⟨rfl, rfl⟩, rowF_faithful fun _ => ⟨rfl, rfl⟩,
    rowF_faithful fun _ => ⟨rfl, rfl⟩⟩

/-- The dispatcher gives any fields to a well-formed instruction that the encoder gives the same fields (R68, R72). -/
theorem dispatch_faithful (f : Fields) : (dispatch f).wf = true ∧ encodeFields (dispatch f) = f := by
  obtain ⟨r, hr, haccepts, hbuild⟩ | ⟨hdefault, hnop⟩ := dispatch_cases f
  · rw [hbuild]
    exact faithful_of_mem_take r hr f haccepts
  · rw [hnop]
    exact ⟨(isDefaultWord_word f).trans hdefault, Fields.ofWord_word f⟩

theorem decodeWord_wf (w : Word) : (decodeWord w).wf = true := (dispatch_faithful _).1

theorem encodeWord_decodeWord (w : Word) : encodeWord (decodeWord w) = w := by
  rw [encodeWord, decodeWord, (dispatch_faithful _).2, Fields.word_ofWord]

theorem encodeWord_nop (w : Word) : encodeWord (.nop w) = w := Fields.word_ofWord w

/-- A word given by its number decodes to the instruction the encoder gives that number (R66, R72). -/
theorem decodeTableWord_of_encodeWord {i : Instr} {w : Nat} (hwf : i.wf = true) (h : encodeWord i = BitVec.ofNat 16 w) :
    decodeTableWord 16 w = some i := by
  rw [decodeTableWord_eq, ← h, decodeWord_encodeWord hwf]

/-! The patterns of R66 side by side. -/

/-- Any two of the 25 patterns want different digits at some place where both have one (R65). -/
theorem maskMatch_pairwise_conflict :
    (maskMatch.take 25).Pairwise (fun p q => p.2 &&& q.1 ≠ q.2 &&& p.1) := by decide

/-- A word that matched two rows would carry the digits of both where both have one. -/
theorem and_mask_comm_of_matches {w : Word} {p q : Word × Word} (hp : w &&& p.1 = p.2) (hq : w &&& q.1 = q.2) :
    p.2 &&& q.1 = q.2 &&& p.1 := by
  rw [← hp, ← hq, BitVec.and_assoc, BitVec.and_assoc, BitVec.and_comm p.1]

/-- Settles O2: the bytes are those of the word, and the dispatcher undoes the encoder on the word's fields. -/
theorem decodeOfEncodeIsTheInstruction : Obligations.DecodeOfEncodeIsTheInstruction := by
  intro i rest hwf
  rw [encode, decode_wordBytes, decodeWord_encodeWord hwf]

/-- Settles O3: the two bytes form one word, which the encoder gives back, and its bytes are those two. -/
theorem encodeOfDecodeIsTheWord : Obligations.EncodeOfDecodeIsTheWord := by
  intro b0 b1
  rw [decodeBytes_eq, encode, encodeWord_decodeWord]
  exact ⟨decodeWord_wf _, bytes_of_append b0 b1⟩

/-- Settles O5: a word that matched two rows would contradict the conflict of their patterns. -/
theorem patternsArePairwiseDisjoint : Obligations.PatternsArePairwiseDisjoint := by
  intro w j k p q hjk hk hp hq hmatch hother
  obtain ⟨hj', rfl⟩ := List.getElem?_eq_some_iff.1 (List.getElem?_take_of_lt (hjk.trans hk) ▸ hp)
  obtain ⟨hk', rfl⟩ := List.getElem?_eq_some_iff.1 (List.getElem?_take_of_lt hk ▸ hq)
  exact List.pairwise_iff_getElem.1 maskMatch_pairwise_conflict j k hj' hk' hjk (and_mask_comm_of_matches hmatch hother)

/-- Settles O6: a decoded no-operation is well-formed, so its word is listed; and the encoder gives its word back. -/
theorem defaultTakesExactlyTheListedWords : Obligations.DefaultTakesExactlyTheListedWords := by
  intro w
  refine ⟨⟨decodeWord_of_isDefaultWord, fun h => ?_⟩, fun v h => ?_⟩
  · have hwf := decodeWord_wf w
    rwa [h] at hwf
  · have hword := encodeWord_decodeWord w
    rwa [h, encodeWord_nop] at hword

/-- Settles O1: each word is the encoder's word of its instruction. -/
theorem writtenOutWordsDecode : Obligations.WrittenOutWordsDecode := by
  refine ⟨?_, ?_, ?_, ?_, ?_, ?_, ?_, ?_, ?_, ?_, ?_, ?_, ?_, ?_⟩ <;>
    exact decodeTableWord_of_encodeWord (by decide) (by decide)

end Sys2Proof

/-! What every instruction and every cycle keeps: the fault register, the stack, memory and the invariant
(spec/10_state.md R25, R27, R33; spec/60_exceptions.md R170 to R177). -/

namespace Sys2Proof

namespace Machine

/-! The places no handler writes. -/

@[simp] theorem handlerWrites_fault (i : Instr) (s : State) : (handlerWrites i s).fault = s.fault := by
  cases i <;> simp [handlerWrites]

@[simp] theorem handlerWrites_stack (i : Instr) (s : State) : (handlerWrites i s).stack = s.stack := by
  cases i <;> simp [handlerWrites]

@[simp] theorem handlerWrites_ram (i : Instr) (s : State) : (handlerWrites i s).ram = s.ram := by
  cases i <;> simp [handlerWrites]

/-- An instruction answers a next state from every state (R7, R90). -/
theorem exists_exec_eq_next (i : Instr) (s : State) : ∃ t, exec i s = .next t := by
  cases hf : handlerFault i s with
  | none => exact ⟨_, exec_of_handlerFault_none hf⟩
  | some f => exact ⟨_, exec_of_handlerFault_some hf⟩

/-- The causes a handler raises, each with its condition and the current `pc` (R172, R173). -/
theorem handlerFault_eq_some {i : Instr} {s : State} {f : Fault} (h : handlerFault i s = some f) :
    (f = .stackUnderflow s.pc ∧ s.sp = 0) ∨ (f = .stackOverflow s.pc ∧ s.sp = 15) := by
  cases i with
  | ret =>
    obtain ⟨hsp, hf⟩ := Option.ite_none_right_eq_some.1 h
    exact .inl ⟨(Option.some.inj hf).symm, hsp⟩
  | callAddr nnn =>
    obtain ⟨hsp, hf⟩ := Option.ite_none_right_eq_some.1 h
    exact .inr ⟨(Option.some.inj hf).symm, hsp⟩
  | _ => cases h

/-- The next state of an instruction that does not fault. -/
theorem eq_of_exec_of_handlerFault_none {i : Instr} {s t : State} (hf : handlerFault i s = none)
    (h : exec i s = .next t) : t = (handlerWrites i s).setPc ((directiveOf i s).target s.pc) :=
  (Host.Outcome.next.inj ((exec_of_handlerFault_none hf).symm.trans h)).symm

/-- An instruction that does not fault leaves `fault` as it was. -/
theorem exec_fault_of_handlerFault_none {i : Instr} {s t : State} (hf : handlerFault i s = none)
    (h : exec i s = .next t) : t.fault = s.fault := by
  rw [eq_of_exec_of_handlerFault_none hf h, State.setPc_fault, handlerWrites_fault]

theorem exec_stack_ram {i : Instr} {s t : State} (h : exec i s = .next t) : t.stack = s.stack ∧ t.ram = s.ram := by
  obtain ⟨f, -, rfl⟩ | ⟨-, rfl⟩ := exec_cases h
  · exact ⟨rfl, rfl⟩
  · exact ⟨handlerWrites_stack i s, handlerWrites_ram i s⟩

/-! The step. -/

/-- A faulted core's cycle is the same state (R81). -/
theorem step_of_fault {s : State} {f : Fault} (h : s.fault = some f) : step s = .next s := by
  simp only [step, h]

theorem exists_step_eq_next (s : State) : ∃ t, step s = .next t := by
  cases hf : s.fault with
  | some f => exact ⟨s, step_of_fault hf⟩
  | none =>
    cases hb : s.fetch with
    | none => exact ⟨_, (step_of_fetch_none hf hb).trans (raise_eq_next.2 rfl)⟩
    | some b => exact step_of_fetch_some hf hb ▸ exists_exec_eq_next _ s

theorem step_stack_ram {s t : State} (h : step s = .next t) : t.stack = s.stack ∧ t.ram = s.ram := by
  obtain ⟨-, rfl⟩ | ⟨-, -, rfl⟩ | ⟨b0, b1, -, -, hexec⟩ := step_cases h
  · exact ⟨rfl, rfl⟩
  · exact ⟨rfl, rfl⟩
  · exact exec_stack_ram hexec

/-- A run of `k + 1` cycles is a step followed by a run of `k`. -/
theorem runCycles_succ_eq_next {k : Nat} {s t : State} (h : runCycles (k + 1) s = .next t) :
    ∃ u, step s = .next u ∧ runCycles k u = .next t := by
  obtain ⟨u, hu⟩ := exists_step_eq_next s
  exact ⟨u, hu, runCycles_succ hu k ▸ h⟩

/-- A cycle that leaves a fault where there was none changes `fault` alone, and the cause is one of three: nothing to
fetch, `RET` at `sp = 0`, `CALL` at `sp = 15`, each with the `pc` the state keeps (R171 to R173, R177). -/
theorem step_new_fault {s t : State} {f : Fault} (h : step s = .next t) (hs : s.fault = none) (ht : t.fault = some f) :
    t = { s with fault := some f } ∧
      ((f = .fetchOutOfBounds s.pc ∧ Config.memSize ≤ s.pc.toNat + 1) ∨ (f = .stackUnderflow s.pc ∧ s.sp = 0) ∨
        (f = .stackOverflow s.pc ∧ s.sp = 15)) := by
  obtain ⟨hfaulted, -⟩ | ⟨-, hnone, rfl⟩ | ⟨b0, b1, -, -, hexec⟩ := step_cases h
  · rw [hs] at hfaulted
    cases hfaulted
  · obtain rfl := Option.some.inj ht
    exact ⟨rfl, .inl ⟨rfl, State.fetch_eq_none.1 hnone⟩⟩
  · cases hf : handlerFault (decodeBytes b0 b1) s with
    | none =>
      rw [exec_fault_of_handlerFault_none hf hexec, hs] at ht
      cases ht
    | some g =>
      rw [exec_of_handlerFault_some hf, Host.Outcome.next.injEq] at hexec
      subst hexec
      obtain rfl := Option.some.inj ht
      exact ⟨rfl, .inr (handlerFault_eq_some hf)⟩

/-! The invariant (R25, R33). -/

/-- `sp` stays in [0,15]: `RET` counts down only above 0, `CALL` counts up only below 15. -/
theorem handlerWrites_sp_lt {i : Instr} {s : State} (hf : handlerFault i s = none) (h : s.sp.toNat < 16) :
    (handlerWrites i s).sp.toNat < 16 := by
  cases i with
  | ret =>
    have hsp : s.sp ≠ 0 := by simpa [handlerFault] using hf
    show (s.sp - 1).toNat < 16
    bv_omega
  | callAddr nnn =>
    have hsp : s.sp ≠ 15 := by simpa [handlerFault] using hf
    show (s.sp + 1).toNat < 16
    bv_omega
  | _ => simpa [handlerWrites] using h

theorem exec_sp_lt {i : Instr} {s t : State} (h : s.sp.toNat < 16) (hexec : exec i s = .next t) : t.sp.toNat < 16 := by
  obtain ⟨f, -, rfl⟩ | ⟨hf, rfl⟩ := exec_cases hexec
  · exact h
  · exact handlerWrites_sp_lt hf h

theorem step_sp_lt {s t : State} (h : s.sp.toNat < 16) (hstep : step s = .next t) : t.sp.toNat < 16 := by
  obtain ⟨-, rfl⟩ | ⟨-, -, rfl⟩ | ⟨b0, b1, -, -, hexec⟩ := step_cases hstep
  · exact h
  · exact h
  · exact exec_sp_lt h hexec

theorem faultExplained_of_none {s : State} (h : s.fault = none) : faultExplained s = true := by
  rw [faultExplained, h]

/-- What a step records explains the state it leaves: the condition of the cause still holds, since nothing else has
changed. -/
theorem step_faultExplained {s t : State} (h : faultExplained s = true) (hstep : step s = .next t) :
    faultExplained t = true := by
  cases hs : s.fault with
  | some f =>
    obtain rfl : s = t := Host.Outcome.next.inj ((step_of_fault hs).symm.trans hstep)
    exact h
  | none =>
    cases ht : t.fault with
    | none => exact faultExplained_of_none ht
    | some f =>
      obtain ⟨rfl, ⟨rfl, hcause⟩ | ⟨rfl, hcause⟩ | ⟨rfl, hcause⟩⟩ := step_new_fault hstep hs ht <;>
        simp [faultExplained, hcause]

/-- In a settled state the two bytes at `pc` are the word of the jump to `pc` (R199). -/
theorem settled_iff {s : State} :
    settled s = true ↔ ∃ b0 b1, s.fetch = some (b0, b1) ∧ s.pc.toNat < 4096 ∧
      b0.toNat * 256 + b1.toNat = 0x1000 + s.pc.toNat := by
  unfold settled
  cases hb : s.fetch with
  | none => simp
  | some b =>
    obtain ⟨b0, b1⟩ := b
    simp [Nat.lt_succ_iff]

end Machine

open Sys2Proof.Machine

/-- Settles O49: each part of the invariant by what a step can do to it. -/
theorem stepKeepsTheInvariant : Obligations.StepKeepsTheInvariant := by
  intro s t hinv hstep
  obtain ⟨hsp, hram, hfault⟩ := hinv
  obtain ⟨-, hmemory⟩ := step_stack_ram hstep
  exact ⟨step_sp_lt hsp hstep, hmemory ▸ hram, step_faultExplained hfault hstep⟩

/-- Settles O10, by induction on the number of cycles. -/
theorem faultedCoreNeverChanges : Obligations.FaultedCoreNeverChanges := by
  intro k s h
  obtain ⟨f, hf⟩ := Option.isSome_iff_exists.1 h
  induction k with
  | zero => exact runCycles_zero s
  | succ k ih => exact (runCycles_succ (step_of_fault hf) k).trans ih

/-- Settles O11: a faulted core, a fetch that fails and an instruction each have their next state. -/
theorem everyCycleAnswersANextState : Obligations.EveryCycleAnswersANextState :=
  ⟨exists_step_eq_next, exists_exec_eq_next⟩

/-- Settles O42: the two things an instruction can do, each with its frame. -/
theorem instructionsWriteOnlyTheirWriteSet : Obligations.InstructionsWriteOnlyTheirWriteSet := by
  intro i s t h
  obtain ⟨f, hf, rfl⟩ | ⟨hf, rfl⟩ := exec_cases h
  · exact ⟨fun hnone => absurd (hf.symm.trans hnone) (Option.some_ne_none f), fun _ => writesOnly_fault s (some f)⟩
  · exact ⟨fun _ => writesOnly_handlerWrites_setPc i s _, fun hsome => absurd hf hsome⟩

/-- Settles O45: the handler's fault is what `exec` records, and without one `fault` is kept. -/
theorem handlersFaultOnlyWhereListed : Obligations.HandlersFaultOnlyWhereListed :=
  fun _ _ => ⟨fun _ => exec_of_handlerFault_some, fun _ => exec_fault_of_handlerFault_none⟩

/-- Settles O46: by the three causes, whose codes are 1, 2 and 3. -/
theorem faultEntryIsPrecise : Obligations.FaultEntryIsPrecise := by
  intro s t f hstep hs ht
  obtain ⟨rfl, ⟨rfl, -⟩ | ⟨rfl, -⟩ | ⟨rfl, -⟩⟩ := step_new_fault hstep hs ht <;>
    exact ⟨rfl, rfl, by simp [State.faultCode, Fault.code], rfl⟩

/-- Settles O47, by induction on the number of cycles. -/
theorem stackEntriesAndMemoryNeverChange : Obligations.StackEntriesAndMemoryNeverChange := by
  intro k
  induction k with
  | zero =>
    rintro s t ⟨⟩
    exact ⟨rfl, fun _ => rfl⟩
  | succ k ih =>
    intro s t h
    obtain ⟨u, hstep, hrun⟩ := runCycles_succ_eq_next h
    obtain ⟨hstack, hram⟩ := step_stack_ram hstep
    rw [← hstack, ← hram]
    exact ih u t hrun

/-- Settles O58: the bytes at `pc` are those of the jump to `pc`, which is a fixed point. -/
theorem settledStateStepsToItself : Obligations.SettledStateStepsToItself := by
  intro s h
  obtain ⟨hsettled, hnofault⟩ := Bool.and_eq_true_iff.1 h
  obtain ⟨b0, b1, hfetch, hpc, hword⟩ := settled_iff.1 hsettled
  have haddr : s.pc.toNat = (BitVec.ofNat 12 s.pc.toNat).toNat := (Nat.mod_eq_of_lt hpc).symm
  have hdecode : decodeWord (b0 ++ b1) = .jpAddr (BitVec.ofNat 12 s.pc.toNat) := by
    rw [← ofNat_bytes_eq_append, hword]
    exact (decodeWord_ofNat ((fieldsA_word 0x1 _).trans (congrArg (0x1000 + ·) haddr.symm))).trans
      (dispatch_fieldsA_jpAddr _)
  rw [step_of_fetch_some (beq_iff_eq.1 hnofault) hfetch, hdecode, exec_jpAddr, State.setPc_zextAddr_of_eq haddr]

/-- Settles O8: the two reads are the fetch, and the decoder's answer is the instruction it runs. -/
theorem stepRunsTheDecodedInstruction : Obligations.StepRunsTheDecodedInstruction := by
  intro s b0 b1 i hf hread0 hread1 hdecode _
  obtain ⟨rfl, -⟩ := Prod.mk.inj (Except.ok.inj hdecode)
  rw [step_of_fetch_some hf (State.fetch_of_reads hread0 hread1), decodeBytes_eq]

end Sys2Proof

/-! The instructions one by one: the program counter, the guarded subtractions and the shifts, the two additions, the
stack pointer (spec/40_cycle.md R88; spec/41_control_flow.md; spec/44_alu_register.md; spec/43_immediate.md R121). -/

namespace Sys2Proof

/-! The words of these instructions (R66). -/

theorem dispatch_fieldsR_subVxVy (x y : Reg) : dispatch (fieldsR 0x8 x y 0x5) = .subVxVy x y := rfl

theorem dispatch_fieldsR_shrVx (x y : Reg) : dispatch (fieldsR 0x8 x y 0x6) = .shrVx x y := rfl

theorem dispatch_fieldsR_subnVxVy (x y : Reg) : dispatch (fieldsR 0x8 x y 0x7) = .subnVxVy x y := rfl

theorem dispatch_fieldsR_shlVx (x y : Reg) : dispatch (fieldsR 0x8 x y 0xE) = .shlVx x y := rfl

theorem dispatch_fieldsF_addIVx (x : Reg) : dispatch (fieldsF x 0x1 0xE) = .addIVx x := rfl

namespace Machine

/-! The guarded subtraction, for `SUB` and `SUBN` alike (R135, R137). -/

theorem aluSub_flag (a b : Byte) : (aluSub a b).flag = some (decide (a.toNat > b.toNat)) := rfl

theorem aluSub_result_of_ge {a b : Byte} (h : a.toNat ≥ b.toNat) :
    (aluSub a b).result = some (BitVec.ofNat 8 (a.toNat - b.toNat)) := if_pos h

theorem aluSub_result_of_lt {a b : Byte} (h : a.toNat < b.toNat) : (aluSub a b).result = none :=
  if_neg (Nat.not_le.2 h)

theorem State.reg_writeBack_aluSub_of_ge (s : State) (x : Reg) {a b : Byte} (h : a.toNat ≥ b.toNat) :
    ((s.writeBack x (aluSub a b)).reg x).toNat = a.toNat - b.toNat := by
  rw [s.reg_writeBack_result (aluSub_result_of_ge h), BitVec.toNat_ofNat]
  exact Nat.mod_eq_of_lt ((Nat.sub_le _ _).trans_lt a.isLt)

/-- With the subtraction guarded off the destination keeps its value, unless it is `VF`, which takes the flag 0. -/
theorem State.reg_writeBack_aluSub_of_lt (s : State) (x : Reg) {a b : Byte} (h : a.toNat < b.toNat) :
    (s.writeBack x (aluSub a b)).reg x = if x = flagReg then 0 else s.reg x := by
  have hflag : flagByte (decide (a.toNat > b.toNat)) = 0 := (flagByte_decide _).trans (if_neg (Nat.lt_asymm h))
  rw [State.reg_writeBack, aluSub_result_of_lt h, aluSub_flag]
  show (s.writeFlag _).reg x = _
  rw [State.writeFlag, State.reg_setReg, hflag]
  simp only [eq_comm]

theorem State.reg_writeBack_aluSub_flag (s : State) {x : Reg} (a b : Byte) (hx : x ≠ flagReg) :
    (s.writeBack x (aluSub a b)).reg flagReg = if a.toNat > b.toNat then 1 else 0 :=
  (s.reg_writeBack_flag (aluSub_flag a b) (.inl hx)).trans (flagByte_decide _)

/-! The shifts (R136, R138). -/

theorem aluShr_flag (a : Byte) : (aluShr a).flag = some (a.toNat % 2 == 1) := rfl

theorem aluShr_result (a : Byte) : (aluShr a).result = some (a >>> 1) := rfl

theorem aluShl_flag (a : Byte) : (aluShl a).flag = some (decide (a.toNat ≥ 128)) := rfl

theorem aluShl_result (a : Byte) : (aluShl a).result = some (a <<< 1) := rfl

/-- The bit a right shift puts out, as a number. -/
theorem flagByte_lowBit_toNat (a : Byte) : (flagByte (a.toNat % 2 == 1)).toNat = a.toNat % 2 := by
  obtain h | h := Nat.mod_two_eq_zero_or_one a.toNat <;> rw [h] <;> rfl

/-- The bit a left shift puts out, as a number. -/
theorem flagByte_highBit_toNat (a : Byte) : (flagByte (decide (a.toNat ≥ 128))).toNat = a.toNat / 128 := by
  have hlt : a.toNat < 256 := a.isLt
  by_cases h : a.toNat ≥ 128
  · rw [decide_eq_true h]
    show 1 = _
    omega
  · rw [decide_eq_false h]
    show 0 = _
    omega

theorem shiftRight_one_toNat (a : Byte) : (a >>> 1).toNat = a.toNat / 2 := by
  rw [BitVec.toNat_ushiftRight, Nat.shiftRight_eq_div_pow, Nat.pow_one]

theorem shiftLeft_one_toNat (a : Byte) : (a <<< 1).toNat = a.toNat * 2 % 256 := by
  rw [BitVec.toNat_shiftLeft, Nat.shiftLeft_eq, Nat.pow_one]

/-! The flag of the five operations that have one (R21). -/

theorem flagByte_eq_zero_or_one (flag : Bool) : flagByte flag = 0 ∨ flagByte flag = 1 := by
  cases flag with
  | false => exact .inl rfl
  | true => exact .inr rfl

/-- An operation with a flag leaves 0 or 1 in `VF` unless `VF` is its destination. -/
theorem State.reg_writeBack_flag_eq_zero_or_one (s : State) {x : Reg} {out : AluOut} {flag : Bool}
    (h : out.flag = some flag) (hx : x ≠ flagReg) :
    (s.writeBack x out).reg flagReg = 0 ∨ (s.writeBack x out).reg flagReg = 1 := by
  rw [s.reg_writeBack_flag h (.inl hx)]
  exact flagByte_eq_zero_or_one flag

/-! What a change of a place says of the cycle. -/

/-- An instruction that changes a place other than `fault` has it in its "writes" column (R34). -/
theorem mem_writeSet_of_change {i : Instr} {s t : State} {p : Place} (h : exec i s = .next t) (hp : p ≠ .fault)
    (hchange : ¬ p.same s t) : p ∈ writeSet i :=
  Decidable.by_contra fun hmem => hchange (exec_same_of_notMem_writeSet h hmem hp)

/-- A cycle that changes a place other than `fault` has run an instruction on the fetched bytes. -/
theorem exec_of_step_change {s t : State} {p : Place} (h : step s = .next t) (hp : p ≠ .fault)
    (hchange : ¬ p.same s t) :
    ∃ b0 b1, s.fetch = some (b0, b1) ∧ exec (decodeBytes b0 b1) s = .next t := by
  obtain ⟨-, rfl⟩ | ⟨-, -, rfl⟩ | ⟨b0, b1, -, hfetch, hexec⟩ := step_cases h
  · exact absurd (writesOnly_refl [] t p (by simp)) hchange
  · exact absurd (writesOnly_fault s _ p (mt List.mem_singleton.1 hp)) hchange
  · exact ⟨b0, b1, hfetch, hexec⟩

theorem eq_ldStVx_of_st_mem_writeSet {i : Instr} (h : .st ∈ writeSet i) : ∃ x, i = .ldStVx x := by
  cases i with
  | ldStVx x => exact ⟨x, rfl⟩
  | _ => simp [writeSet] at h

theorem exec_dt_of_change {i : Instr} {s t : State} (h : exec i s = .next t) (hchange : t.dt ≠ s.dt) :
    ∃ x, i = .ldDtVx x ∧ t.dt = s.reg x := by
  obtain ⟨x, rfl⟩ := eq_ldDtVx_of_dt_mem_writeSet (mem_writeSet_of_change (p := .dt) h (by simp) hchange)
  exact ⟨x, rfl, eq_of_exec_of_handlerFault_none rfl h ▸ rfl⟩

theorem exec_st_of_change {i : Instr} {s t : State} (h : exec i s = .next t) (hchange : t.st ≠ s.st) :
    ∃ x, i = .ldStVx x ∧ t.st = s.reg x := by
  obtain ⟨x, rfl⟩ := eq_ldStVx_of_st_mem_writeSet (mem_writeSet_of_change (p := .st) h (by simp) hchange)
  exact ⟨x, rfl, eq_of_exec_of_handlerFault_none rfl h ▸ rfl⟩

end Machine

open Sys2Proof.Machine

/-- Settles O12: the controller's three answers, the two sums modulo 65536. -/
theorem directiveMovesThePc : Obligations.DirectiveMovesThePc := by
  intro i s t h hf
  rw [eq_of_exec_of_handlerFault_none hf h, State.setPc_pc]
  cases directiveOf i s with
  | next => exact BitVec.toNat_add s.pc 2
  | skip => exact BitVec.toNat_add s.pc 4
  | jump a => rfl

/-- Settles O30: the guarded subtraction of `V[y]` from `V[x]`. -/
theorem subIsGuardedWithStrictFlag : Obligations.SubIsGuardedWithStrictFlag := by
  intro x y s
  exact ⟨(decodeWord_opcode8 x y 0x5).trans (dispatch_fieldsR_subVxVy x y), _, exec_of_handlerFault_none rfl,
    s.reg_writeBack_aluSub_of_ge x, s.reg_writeBack_aluSub_of_lt x, s.reg_writeBack_aluSub_flag _ _, rfl,
    writesOnly_handlerWrites_setPc (.subVxVy x y) s _⟩

/-- Settles O32: the guarded subtraction of `V[x]` from `V[y]`, its destination still `V[x]`. -/
theorem subnIsGuardedWithStrictFlag : Obligations.SubnIsGuardedWithStrictFlag := by
  intro x y s
  exact ⟨(decodeWord_opcode8 x y 0x7).trans (dispatch_fieldsR_subnVxVy x y), _, exec_of_handlerFault_none rfl,
    s.reg_writeBack_aluSub_of_ge x, s.reg_writeBack_aluSub_of_lt x, s.reg_writeBack_aluSub_flag _ _, rfl,
    writesOnly_handlerWrites_setPc (.subnVxVy x y) s _⟩

/-- Settles O31: the result is written last, so it stands in `V[x]` for every `x`; `y` does not occur in the meaning. -/
theorem shrHalvesAndFlagsLowBit : Obligations.ShrHalvesAndFlagsLowBit := by
  intro x y s
  refine ⟨(decodeWord_opcode8 x y 0x6).trans (dispatch_fieldsR_shrVx x y), fun _ => rfl, _,
    exec_of_handlerFault_none rfl, ?_, fun hx => ?_, rfl, writesOnly_handlerWrites_setPc (.shrVx x y) s _⟩
  · exact (congrArg BitVec.toNat (s.reg_writeBack_result (aluShr_result _))).trans (shiftRight_one_toNat _)
  · exact (congrArg BitVec.toNat (s.reg_writeBack_flag (aluShr_flag _) (.inl hx))).trans (flagByte_lowBit_toNat _)

/-- Settles O33: as `SHR Vx`, with the shift to the left. -/
theorem shlDoublesAndFlagsHighBit : Obligations.ShlDoublesAndFlagsHighBit := by
  intro x y s
  refine ⟨(decodeWord_opcode8 x y 0xE).trans (dispatch_fieldsR_shlVx x y), fun _ => rfl, _,
    exec_of_handlerFault_none rfl, ?_, fun hx => ?_, rfl, writesOnly_handlerWrites_setPc (.shlVx x y) s _⟩
  · exact (congrArg BitVec.toNat (s.reg_writeBack_result (aluShl_result _))).trans (shiftLeft_one_toNat _)
  · exact (congrArg BitVec.toNat (s.reg_writeBack_flag (aluShl_flag _) (.inl hx))).trans (flagByte_highBit_toNat _)

/-- A guarded subtraction as one number: the difference, or what stays when the guard fails. -/
theorem toNat_eq_ite_of_guarded {a b : Nat} {r c : Byte} (hge : a ≥ b → r.toNat = a - b) (hlt : a < b → r = c) :
    r.toNat = if a ≥ b then a - b else c.toNat := by
  split
  case isTrue h => exact hge h
  case isFalse h => rw [hlt (Nat.lt_of_not_le h)]

/-- Settles O34, from what the five operations do for every `x` and `y` (O29 to O33), at `x = 15` and at `y = 15`. -/
theorem flagRegisterAsOperand : Obligations.FlagRegisterAsOperand := by
  rintro s y f b rfl rfl
  obtain ⟨-, t₁, hadd, haddResult, -⟩ := addSetsCarryThenResult 15 y s
  obtain ⟨-, t₂, hsub, hsubGe, hsubLt, -⟩ := subIsGuardedWithStrictFlag 15 y s
  obtain ⟨-, -, t₃, hshr, hshrResult, -⟩ := shrHalvesAndFlagsLowBit 15 y s
  obtain ⟨-, t₄, hsubn, hsubnGe, hsubnLt, -⟩ := subnIsGuardedWithStrictFlag 15 y s
  obtain ⟨-, -, t₅, hshl, hshlResult, -⟩ := shlDoublesAndFlagsHighBit 15 y s
  refine ⟨⟨t₁, hadd, haddResult⟩, ⟨t₂, hsub, toNat_eq_ite_of_guarded hsubGe hsubLt⟩, ⟨t₃, hshr, hshrResult⟩,
    ⟨t₄, hsubn, toNat_eq_ite_of_guarded hsubnGe hsubnLt⟩, ⟨t₅, hshl, hshlResult⟩, fun hy => ?_⟩
  obtain ⟨-, t₆, hadd, haddResult, haddFlag, -⟩ := addSetsCarryThenResult y 15 s
  obtain ⟨-, t₇, hsub, hsubGe, hsubLt, hsubFlag, -⟩ := subIsGuardedWithStrictFlag y 15 s
  obtain ⟨-, t₈, hsubn, hsubnGe, hsubnLt, hsubnFlag, -⟩ := subnIsGuardedWithStrictFlag y 15 s
  rw [if_neg hy] at hsubLt hsubnLt
  refine ⟨⟨t₆, hadd, haddResult, ?_⟩, ⟨t₇, hsub, toNat_eq_ite_of_guarded hsubGe hsubLt, ?_⟩,
    ⟨t₈, hsubn, toNat_eq_ite_of_guarded hsubnGe hsubnLt, ?_⟩⟩
  · have hb : (s.reg y).toNat < 256 := (s.reg y).isLt
    have hf : (s.reg 15).toNat < 256 := (s.reg 15).isLt
    rw [haddFlag hy, apply_ite BitVec.toNat]
    show (if _ then 1 else 0) = _
    split <;> omega
  · rw [hsubFlag hy, apply_ite BitVec.toNat]
    rfl
  · rw [hsubnFlag hy, apply_ite BitVec.toNat]
    rfl

/-- Settles O44: each of the five writes its flag back; any other instruction that changes `VF` has it in its "writes"
column, so it is its destination. -/
theorem onlyFiveInstructionsWriteTheFlag : Obligations.OnlyFiveInstructionsWriteTheFlag := by
  intro i s t h
  constructor
  · intro hflag
    cases i with
    | addVxVy x y | subVxVy x y | shrVx x y | subnVxVy x y | shlVx x y =>
      refine ⟨List.mem_cons_self, fun hdest => ?_⟩
      rw [eq_of_exec_of_handlerFault_none rfl h]
      exact s.reg_writeBack_flag_eq_zero_or_one rfl (hdest x y (by simp))
    | _ => cases hflag
  · intro hflag hchange
    have hmem := mem_writeSet_of_change (p := .v 15) h (by simp) hchange
    cases i with
    | addVxVy _ _ | subVxVy _ _ | shrVx _ _ | subnVxVy _ _ | shlVx _ _ => cases hflag
    | ldVxByte x _ | addVxByte x _ | rndVxByte x _ | ldVxVy x _ | orVxVy x _ | andVxVy x _ | xorVxVy x _ | ldVxDt x =>
      obtain rfl : 15 = x := by simpa [writeSet] using hmem
      simp
    | _ => simp [writeSet] at hmem

/-- Settles O48: a change of `DT` or `ST` comes from the instruction fetched, which can only be its writer. -/
theorem timerRegistersArePureStorage : Obligations.TimerRegistersArePureStorage := by
  intro s t h
  constructor
  · intro hchange
    obtain ⟨b0, b1, hfetch, hexec⟩ := exec_of_step_change (p := .dt) h (by simp) hchange
    obtain ⟨x, hi, hdt⟩ := exec_dt_of_change hexec hchange
    exact ⟨b0, b1, x, hfetch, hi, hdt⟩
  · intro hchange
    obtain ⟨b0, b1, hfetch, hexec⟩ := exec_of_step_change (p := .st) h (by simp) hchange
    obtain ⟨x, hi, hst⟩ := exec_st_of_change hexec hchange
    exact ⟨b0, b1, x, hfetch, hi, hst⟩

/-- Settles O59: the narrowing of the sum answers nothing exactly when it does not fit, and else what `wrap` answers. -/
theorem trapPolicyFaultsOnOverflow : Obligations.TrapPolicyFaultsOnOverflow := by
  intro x kk s
  refine ⟨fun h => ?_, fun h => ?_, fun h => ?_, fun h => ?_⟩
  · rw [addImmediate, narrowSum_trap_of_overflow h]
    rfl
  · rw [addImmediate, narrowSum_trap_of_fits (Nat.lt_succ_of_le h)]
    rfl
  · rw [addIndex, narrowSum_trap_of_overflow h]
    rfl
  · rw [addIndex, narrowSum_trap_of_fits (Nat.lt_succ_of_le h)]
    rfl

/-- Settles O24: the sum modulo 256 is what the destination takes, and only it and `pc` are written. -/
theorem addByteWrapsWithoutFlag : Obligations.AddByteWrapsWithoutFlag := by
  intro x kk s
  refine ⟨(decodeWord_ofNat (fieldsI_word 0x7 x kk)).trans (dispatch_fieldsI_addVxByte x kk), _,
    exec_of_handlerFault_none rfl, ?_, rfl, writesOnly_handlerWrites_setPc (.addVxByte x kk) s _⟩
  exact (congrArg BitVec.toNat (s.reg_setReg_same x _)).trans (BitVec.toNat_ofNat _ 8)

/-- Settles O40: `I` takes the sum modulo 65536, and only it and `pc` are written. -/
theorem addIndexWrapsAtSixteenBits : Obligations.AddIndexWrapsAtSixteenBits := by
  intro x s
  exact ⟨(decodeWord_opcodeF x 0x1 0xE).trans (dispatch_fieldsF_addIVx x), _, exec_of_handlerFault_none rfl,
    BitVec.toNat_ofNat _ 16, rfl, writesOnly_handlerWrites_setPc (.addIVx x) s _⟩

/-- Settles O13: above an empty stack the handler raises nothing, and the directive is the jump to `stack[sp]`. -/
theorem retJumpsToTheStackEntry : Obligations.RetJumpsToTheStackEntry := by
  intro s hsp
  refine ⟨decodeWord_encodeWord (i := .ret) rfl, _, exec_of_handlerFault_none (if_neg hsp), s.stackEntry_of_lt s.sp, ?_,
    writesOnly_handlerWrites_setPc .ret s _⟩
  show (s.sp - 1).toNat = s.sp.toNat - 1
  bv_omega

/-- Settles O14: the cause `RET` raises on an empty stack. -/
theorem retOnEmptyStackFaults : Obligations.RetOnEmptyStackFaults :=
  fun _ hsp => exec_of_handlerFault_some (if_pos hsp)

/-- Settles O16: below a full stack the handler counts up and the directive is the jump to the address. -/
theorem callCountsAndJumps : Obligations.CallCountsAndJumps := by
  intro nnn s hsp
  refine ⟨(decodeWord_ofNat (fieldsA_word 0x2 nnn)).trans (dispatch_fieldsA_callAddr nnn), _,
    exec_of_handlerFault_none (if_neg hsp), ?_, fun hlt => ?_, rfl, writesOnly_handlerWrites_setPc (.callAddr nnn) s _⟩
  · exact (congrArg BitVec.toNat (zextAddr_eq_ofNat nnn).symm).trans (zextAddr_toNat nnn)
  · show (s.sp + 1).toNat = s.sp.toNat + 1
    bv_omega

/-- Settles O17: the cause `CALL` raises on a full stack. -/
theorem callOnFullStackFaults : Obligations.CallOnFullStackFaults :=
  fun _ _ hsp => exec_of_handlerFault_some (if_pos hsp)

end Sys2Proof

/-! Reset and boot: the registers, the invariant, and memory nothing was loaded to (spec/70_reset_and_hazards.md). -/

namespace Sys2Proof

namespace Machine

/-- Past the font, memory that lists nothing reads 0x00 (D3). -/
theorem State.read_reset_ram_zero {a : Nat} (hfont : Config.fontSize ≤ a) (hbound : a < Config.memSize) :
    Memory.read State.reset.ram a = some 0x00 :=
  Memory.read_eq_some.2 ⟨hbound, if_neg (Nat.not_lt.2 hfont)⟩

/-- Nothing is read from an address that is not backed (R45). -/
theorem Memory.read_of_ge {m : Memory} {a : Nat} (h : Config.memSize ≤ a) : Memory.read m a = none :=
  if_neg (mt (backed_iff a).1 (Nat.not_lt.2 h))

theorem State.reset_reg (x : Reg) : State.reset.reg x = 0 := Vector.getElem_replicate x.isLt

theorem State.reset_stack_get (k : Fin 16) : State.reset.stack.get k = 0 := Vector.getElem_replicate k.isLt

end Machine

open Sys2Proof.Machine

/-- Settles O50: `sp` is 0, memory lists nothing, and no fault is recorded. -/
theorem resetMeetsTheInvariant : Obligations.ResetMeetsTheInvariant :=
  ⟨by decide, State.reset_ram_wf, faultExplained_of_none rfl⟩

/-- Settles O51: boot changes the reset state in memory alone, and a load keeps the canonical form. -/
theorem bootMeetsTheInvariant : Obligations.BootMeetsTheInvariant := by
  intro rom s h
  obtain ⟨-, rfl⟩ := boot_eq_next.1 h
  exact ⟨resetMeetsTheInvariant.sp, Memory.load_wf _ rom State.reset_ram_wf, faultExplained_of_none rfl⟩

/-- Settles O55: outside the ROM boot leaves memory as at reset, where all but the font reads 0x00. -/
theorem unloadedMemoryReadsZero : Obligations.UnloadedMemoryReadsZero := by
  constructor
  · intro rom s a hboot hfont hbound houtside
    exact (read_ram_of_boot hboot houtside).trans (State.read_reset_ram_zero hfont hbound)
  · intro s a h
    exact Memory.read_of_ge h

/-- Settles O52: the fields of the reset state, the two vectors entry by entry. -/
theorem resetRegisterValues : Obligations.ResetRegisterValues :=
  ⟨rfl, rfl, State.reset_reg, rfl, rfl, rfl, State.reset_stack_get, rfl, rfl⟩

/-- Settles O53: place by place; memory and the count of draws are the two places left as they were. -/
theorem resetInputRestoresTheRegisters : Obligations.ResetInputRestoresTheRegisters := by
  intro s
  refine ⟨fun p hram hdraws => ?_, fun a => congrArg (Memory.read · a) (assertReset_ram s)⟩
  cases p with
  | ram a => exact absurd rfl (hram a)
  | draws => exact absurd rfl hdraws
  | _ => rfl

/-- Settles O57: a ROM longer than the room from 0x200 on does not fit. -/
theorem longRomIsRefused : Obligations.LongRomIsRefused :=
  fun _ h => if_neg (mt romFits_iff.1 (Nat.not_le.2 h))

end Sys2Proof

/-! What an instruction writes depends only on what its line of spec/10_state.md R34 reads. -/

namespace Sys2Proof

namespace Machine

/-! Two states that hold the same at some places. -/

theorem sameOn_cons {p : Place} {ps : List Place} {s t : State} : sameOn (p :: ps) s t ↔ p.same s t ∧ sameOn ps s t :=
  List.forall_mem_cons

theorem sameOn_nil (s t : State) : sameOn [] s t := fun _ hp => nomatch hp

theorem sameOn_pair {p q : Place} {s t : State} : sameOn [p, q] s t ↔ p.same s t ∧ q.same s t := by
  simp [sameOn]

/-- `RET` reads `sp` and, where `sp` names an entry, that entry; the target is then the same (R100). -/
theorem sameOn_readSet_ret {s₁ s₂ : State} (h : sameOn (readSet .ret s₁) s₁ s₂) :
    s₂.sp = s₁.sp ∧ s₂.stackEntry s₁.sp = s₁.stackEntry s₁.sp := by
  by_cases hlt : s₁.sp.toNat < 16
  · rw [readSet, dif_pos hlt, sameOn_cons, sameOn_cons] at h
    obtain ⟨hsp, hentry, -⟩ := h
    exact ⟨hsp, by rw [State.stackEntry_of_lt _ _ hlt, State.stackEntry_of_lt _ _ hlt]; exact hentry⟩
  · rw [readSet, dif_neg hlt, sameOn_cons] at h
    obtain ⟨hsp, -⟩ := h
    exact ⟨hsp, by rw [State.stackEntry, State.stackEntry, dif_neg hlt, dif_neg hlt]⟩

theorem handlerFault_congr {i : Instr} {s₁ s₂ : State} (hpc : s₂.pc = s₁.pc) (h : sameOn (readSet i s₁) s₁ s₂) :
    handlerFault i s₂ = handlerFault i s₁ := by
  cases i with
  | ret =>
    obtain ⟨hsp, -⟩ := sameOn_readSet_ret h
    rw [handlerFault, handlerFault, hpc, hsp]
  | callAddr nnn =>
    have hsp : s₂.sp = s₁.sp := (sameOn_cons.1 h).1
    rw [handlerFault, handlerFault, hpc, hsp]
  | _ => rfl

theorem directiveOf_congr {i : Instr} {s₁ s₂ : State} (h : sameOn (readSet i s₁) s₁ s₂) :
    directiveOf i s₂ = directiveOf i s₁ := by
  cases i with
  | ret =>
    obtain ⟨hsp, hentry⟩ := sameOn_readSet_ret h
    rw [directiveOf, directiveOf, hsp, hentry]
  | jpV0Addr _ | seVxByte _ _ | sneVxByte _ _ =>
    obtain ⟨hx, -⟩ := sameOn_cons.1 h
    rw [directiveOf, directiveOf, hx]
  | seVxVy _ _ | sneVxVy _ _ =>
    obtain ⟨hx, hy⟩ := sameOn_pair.1 h
    rw [directiveOf, directiveOf, hx, hy]
  | _ => rfl

/-- The same result written to the same register of two states. -/
theorem sameOn_setReg_setPc (s₁ s₂ : State) (x : Reg) (a : Word) {b₁ b₂ : Byte} (h : b₂ = b₁) :
    sameOn [.v x, .pc] ((s₁.setReg x b₁).setPc a) ((s₂.setReg x b₂).setPc a) := by
  refine sameOn_pair.2 ⟨?_, rfl⟩
  exact (s₂.reg_setReg_same x b₂).trans (h.trans (s₁.reg_setReg_same x b₁).symm)

/-- The same flag and result written back to two states that agree on the destination, which a result that is guarded
off leaves as it was. -/
theorem sameOn_writeBack_setPc {s₁ s₂ : State} {x : Reg} (a : Word) {out₁ out₂ : AluOut} {flag : Bool}
    (hflag : out₁.flag = some flag) (h : out₂ = out₁) (hx : s₂.reg x = s₁.reg x) :
    sameOn [.v 15, .v x, .pc] ((s₁.writeBack x out₁).setPc a) ((s₂.writeBack x out₂).setPc a) := by
  subst h
  refine sameOn_cons.2 ⟨?_, sameOn_pair.2 ⟨?_, rfl⟩⟩
  · show (s₂.writeBack x out₂).reg flagReg = (s₁.writeBack x out₂).reg flagReg
    simp [State.reg_writeBack, State.reg_writeFlag, hflag]
  · show (s₂.writeBack x out₂).reg x = (s₁.writeBack x out₂).reg x
    simp [State.reg_writeBack, State.reg_writeFlag, hflag, hx]

/-- The writes of a handler, and that of the same `pc`, come out alike from states that agree on what it reads. -/
theorem sameOn_handlerWrites_setPc {i : Instr} {s₁ s₂ : State} (h : sameOn (readSet i s₁) s₁ s₂) (a : Word) :
    sameOn (writeSet i) ((handlerWrites i s₁).setPc a) ((handlerWrites i s₂).setPc a) := by
  cases i with
  | ret =>
    obtain ⟨hsp, -⟩ := sameOn_readSet_ret h
    exact sameOn_pair.2 ⟨congrArg (· - 1) hsp, rfl⟩
  | callAddr _ => exact sameOn_pair.2 ⟨congrArg (· + 1) (sameOn_cons.1 h).1, rfl⟩
  | jpAddr _ | jpV0Addr _ | nop _ => exact sameOn_cons.2 ⟨rfl, sameOn_nil _ _⟩
  | seVxByte _ _ | sneVxByte _ _ | seVxVy _ _ | sneVxVy _ _ => exact sameOn_cons.2 ⟨rfl, sameOn_nil _ _⟩
  | ldVxByte x _ => exact sameOn_setReg_setPc s₁ s₂ x a rfl
  | addVxByte x _ | ldVxVy x _ | ldVxDt x =>
    obtain ⟨hsource, -⟩ := sameOn_cons.1 h
    exact sameOn_setReg_setPc s₁ s₂ x a (by rw [hsource])
  | orVxVy x _ | andVxVy x _ | xorVxVy x _ =>
    obtain ⟨hx, hy⟩ := sameOn_pair.1 h
    exact sameOn_setReg_setPc s₁ s₂ x a (by rw [hx, hy])
  | addVxVy x _ | subVxVy x _ | subnVxVy x _ =>
    obtain ⟨hx, hy⟩ := sameOn_pair.1 h
    exact sameOn_writeBack_setPc a rfl (by rw [hx, hy]) hx
  | shrVx x _ | shlVx x _ =>
    obtain ⟨hx, -⟩ := sameOn_cons.1 h
    exact sameOn_writeBack_setPc a rfl (by rw [hx]) hx
  | ldIAddr _ => exact sameOn_pair.2 ⟨rfl, rfl⟩
  | ldDtVx _ | ldStVx _ => exact sameOn_pair.2 ⟨(sameOn_cons.1 h).1, rfl⟩
  | addIVx _ =>
    obtain ⟨hi, hx⟩ := sameOn_pair.1 h
    refine sameOn_pair.2 ⟨?_, rfl⟩
    show BitVec.ofNat 16 (s₂.i.toNat + (s₂.reg _).toNat) = BitVec.ofNat 16 (s₁.i.toNat + (s₁.reg _).toNat)
    rw [hi, hx]
  | rndVxByte x kk =>
    obtain ⟨hdraws, -⟩ := sameOn_cons.1 h
    have hbyte : kk &&& s₂.drawByte = kk &&& s₁.drawByte := by rw [State.drawByte, State.drawByte, hdraws]
    obtain ⟨hreg, hpc⟩ := sameOn_pair.1 (sameOn_setReg_setPc s₁ s₂ x a hbyte)
    exact sameOn_cons.2 ⟨hreg, sameOn_pair.2 ⟨hpc, congrArg (· + 1) hdraws⟩⟩

/-- Two states that agree on `pc` and on what a handler that faults reads agree on everything it would have written. -/
theorem sameOn_writeSet_of_handlerFault {i : Instr} {s₁ s₂ : State} {f : Fault} (hf : handlerFault i s₁ = some f)
    (hpc : s₂.pc = s₁.pc) (h : sameOn (readSet i s₁) s₁ s₂) : sameOn (writeSet i) s₁ s₂ := by
  cases i with
  | ret =>
    obtain ⟨hsp, -⟩ := sameOn_readSet_ret h
    exact sameOn_pair.2 ⟨hsp, hpc⟩
  | callAddr _ => exact sameOn_pair.2 ⟨(sameOn_cons.1 h).1, hpc⟩
  | _ => cases hf

/-- No instruction lists `fault` among what it writes, so recording one changes none of what it does list. -/
theorem sameOn_writeSet_fault {i : Instr} {s₁ s₂ : State} (f : Option Fault) (h : sameOn (writeSet i) s₁ s₂) :
    sameOn (writeSet i) { s₁ with fault := f } { s₂ with fault := f } := by
  intro p hp
  cases p with
  | fault => rfl
  | _ => exact h _ hp

end Machine

open Sys2Proof.Machine

/-- Settles O43: states that agree on what is read agree on whether the handler faults, then on the fault recorded, or
on the directive and on every write. -/
theorem instructionsReadOnlyTheirReadSet : Obligations.InstructionsReadOnlyTheirReadSet := by
  intro i s₁ s₂ t₁ t₂ h h₁ h₂
  obtain ⟨hpc, hrest⟩ := sameOn_cons.1 h
  obtain ⟨hfault, hread⟩ := sameOn_cons.1 hrest
  have hsame := handlerFault_congr hpc hread
  obtain ⟨f, hf, rfl⟩ | ⟨hf, rfl⟩ := exec_cases h₁
  · obtain rfl := Host.Outcome.next.inj ((exec_of_handlerFault_some (hsame.trans hf)).symm.trans h₂)
    exact sameOn_cons.2 ⟨rfl, sameOn_writeSet_fault (some f) (sameOn_writeSet_of_handlerFault hf hpc hread)⟩
  · rw [eq_of_exec_of_handlerFault_none (hsame.trans hf) h₂, directiveOf_congr hread, hpc]
    refine sameOn_cons.2 ⟨?_, sameOn_handlerWrites_setPc hread _⟩
    exact (handlerWrites_fault i s₂).trans (hfault.trans (handlerWrites_fault i s₁).symm)

end Sys2Proof
